-- ==== Sys2Proof/Word.lean ====
section
/-! DEFINITION. The byte, the one datum of this hardware (spec/00_scope.md R5, R7): every register, memory cell, `pc` and
`sp` value is an unsigned integer 0 to 255. -/

namespace Sys2Proof

/-- An unsigned 8-bit value (R5, R7). Bit 7 is the most significant. -/
abbrev Byte := BitVec 8

end Sys2Proof
end

