-- ==== Sys2Proof/Config.lean ====
section
/-! DEFINITION. The configuration: what spec/00_scope.md R6 leaves open and gives a default. A run is launched with a
`Config` and a program (`Machine.launch`); the machine's own `step` and `State.reset` use the defaults. -/

namespace Sys2Proof

/-- The six opcode bytes the source does not print (R6, R55, decision D1). -/
structure OpcodeMap where
  mul  : Byte
  add  : Byte
  push : Byte
  pop  : Byte
  call : Byte
  ret  : Byte
deriving DecidableEq, Repr

/-- The configuration values of R6. -/
structure Config where
  /-- `REG_RESET`: the reset value of R0 to R6 (D3). -/
  regReset : Byte
  /-- `MEM_FILL`: the reset value of a cell the loader did not write (D4). -/
  memFill  : Byte
  opcodes  : OpcodeMap
deriving DecidableEq, Repr

/-- What an address that memory does not list reads as: the default `MEM_FILL` (R6, R44, D4).
DESIGN CHOICE, unsafe: log entry 3. -/
def unlistedByte : Byte := 0

/-- The default of `REG_RESET` (R6, R22, D3). DESIGN CHOICE, unsafe: log entry 2. -/
def defaultRegReset : Byte := 0

end Sys2Proof
end

