-- ==== Sys2Proof/Syntax.lean ====
section
/-! DEFINITION. The nine instructions (spec/30_encoding.md R54), one constructor per row of spec/opcode_table.json.
An operand is the whole operand byte, as the encoding has it (R50, R52): a register operand above 7 is part of a decodable
instruction and faults when that instruction executes (R53, R75 rows 4 and 5), so syntax keeps the byte. -/

namespace Sys2Proof

/-- The instructions with their operand bytes, in the table's order (R54). -/
inductive Instr where
  /-- `LDI reg, immediate` (R90). -/
  | ldi (a imm : Byte)
  /-- `PRN reg` (R91). -/
  | prn (a : Byte)
  /-- `HLT` (R92). -/
  | hlt
  /-- `MUL regA, regB` (R101). -/
  | mul (a b : Byte)
  /-- `ADD regA, regB` (R102). -/
  | add (a b : Byte)
  /-- `PUSH reg` (R110). -/
  | push (a : Byte)
  /-- `POP reg` (R111). -/
  | pop (a : Byte)
  /-- `CALL reg` (R120). -/
  | call (a : Byte)
  /-- `RET` (R121). -/
  | ret
deriving DecidableEq, Repr

/-- The nine mnemonics: what the opcode byte alone determines (R51). -/
inductive Opcode where
  | ldi | prn | hlt | mul | add | push | pop | call | ret
deriving DecidableEq, Repr

/-- The mnemonic of an instruction. -/
def Instr.opcode : Instr → Opcode
  | .ldi _ _ => .ldi
  | .prn _   => .prn
  | .hlt     => .hlt
  | .mul _ _ => .mul
  | .add _ _ => .add
  | .push _  => .push
  | .pop _   => .pop
  | .call _  => .call
  | .ret     => .ret

/-- The operand bytes that name registers, in order (R52): every operand but `LDI`'s second. -/
def Instr.regOperands : Instr → List Byte
  | .ldi a _ => [a]
  | .prn a   => [a]
  | .hlt     => []
  | .mul a b => [a, b]
  | .add a b => [a, b]
  | .push a  => [a]
  | .pop a   => [a]
  | .call a  => [a]
  | .ret     => []

end Sys2Proof
end

