-- ==== Sys2Proof/WellFormed.lean ====
section
/-! DEFINITION. Well-formed instructions: every register operand names one of R0 to R7 (spec/30_encoding.md R53). An
immediate may be any byte (R57). -/

namespace Sys2Proof

/-- The register operand byte `k` names a register (R53: `k <= 7`). -/
def regOperandOk (k : Byte) : Bool := decide (k.toNat ≤ 7)

/-- Every register operand of the instruction names a register (R53). An ill-formed instruction still decodes and faults
`OutOfBounds(REG, k)` when it executes. -/
def Instr.wellFormed (i : Instr) : Bool := i.regOperands.all regOperandOk

end Sys2Proof
end

