-- ==== Sys2Proof/Decode.lean ====
section
/-! DEFINITION. The decoder and the encoder, from spec/30_encoding.md R50 to R57 and spec/opcode_table.json. Both take the
opcode assignment as an argument, because R55 makes six of the nine opcode bytes parameters; `OpcodeMap.default` is the
table's assignment. -/

namespace Sys2Proof

/-- The default opcode bytes (R55). PRESUMED by the spec (the LS-8 values, D1), unsafe: log entry 1. -/
def OpcodeMap.default : OpcodeMap :=
  { mul := 0xA2, add := 0xA0, push := 0x45, pop := 0x46, call := 0x50, ret := 0x11 }

/-- The default configuration (R6). -/
def Config.default : Config :=
  { regReset := defaultRegReset, memFill := unlistedByte, opcodes := OpcodeMap.default }

/-- The opcode byte of a mnemonic (R54): three are fixed by the source, six are parameters. -/
def OpcodeMap.byte (m : OpcodeMap) : Opcode → Byte
  | .ldi  => 0x82
  | .prn  => 0x47
  | .hlt  => 0x01
  | .mul  => m.mul
  | .add  => m.add
  | .push => m.push
  | .pop  => m.pop
  | .call => m.call
  | .ret  => m.ret

/-- The nine mnemonics in the order of the opcode table (R54). -/
def Opcode.all : List Opcode := [.ldi, .prn, .hlt, .mul, .add, .push, .pop, .call, .ret]

/-- The constraint on an opcode assignment: the nine bytes are pairwise distinct (R6, R55). -/
abbrev OpcodeMap.Distinct (m : OpcodeMap) : Prop := (Opcode.all.map m.byte).Nodup

/-- `decode(ir)` of R54, R74: the mnemonic whose opcode byte is `ir`, the whole byte compared; none where `ir` is illegal. -/
def OpcodeMap.lookup (m : OpcodeMap) (ir : Byte) : Option Opcode :=
  Opcode.all.find? (fun op => m.byte op == ir)

/-- The operand count `nops` (R50, R51, R54). -/
def Opcode.nops : Opcode → Nat
  | .ldi  => 2
  | .prn  => 1
  | .hlt  => 0
  | .mul  => 2
  | .add  => 2
  | .push => 1
  | .pop  => 1
  | .call => 1
  | .ret  => 0

/-- The length of an instruction in bytes (R51: `1 + nops`). -/
def Instr.length (i : Instr) : Nat := 1 + i.opcode.nops

/-- The instruction of a mnemonic with the operand bytes `a` (at `pc + 1`) and `b` (at `pc + 2`); an operand the mnemonic
does not consume is dropped (R50, R52). -/
def Opcode.assemble : Opcode → Byte → Byte → Instr
  | .ldi,  a, b => .ldi a b
  | .prn,  a, _ => .prn a
  | .hlt,  _, _ => .hlt
  | .mul,  a, b => .mul a b
  | .add,  a, b => .add a b
  | .push, a, _ => .push a
  | .pop,  a, _ => .pop a
  | .call, a, _ => .call a
  | .ret,  _, _ => .ret

/-- Why a byte sequence is no instruction. -/
inductive DecodeError where
  /-- There is no byte at all. -/
  | endOfBytes
  /-- The first byte is none of the nine opcode bytes (R57). -/
  | illegalOpcode (ir : Byte)
  /-- The opcode's operands are not all there (R73). -/
  | cutOff (op : Opcode)
deriving DecidableEq, Repr

/-- Decode one instruction from the front of a byte sequence, lowest address first (R50); answers the instruction and the
bytes after it. Illegality depends on the opcode byte only, and comes before a missing operand (R57, R75). -/
def decode (m : OpcodeMap) : List Byte → Except DecodeError (Instr × List Byte)
  | [] => .error .endOfBytes
  | ir :: rest =>
    match m.lookup ir with
    | none => .error (.illegalOpcode ir)
    | some op =>
      if rest.length < op.nops then .error (.cutOff op)
      else .ok (op.assemble (rest.getD 0 0) (rest.getD 1 0), rest.drop op.nops)

/-- The bytes of an instruction, lowest address first (R50, R54; the `encoding` strings of spec/opcode_table.json). -/
def encode (m : OpcodeMap) : Instr → List Byte
  | .ldi a imm => [0x82, a, imm]
  | .prn a     => [0x47, a]
  | .hlt       => [0x01]
  | .mul a b   => [m.mul, a, b]
  | .add a b   => [m.add, a, b]
  | .push a    => [m.push, a]
  | .pop a     => [m.pop, a]
  | .call a    => [m.call, a]
  | .ret       => [m.ret]

/-- Byte `k` (the one `k` addresses above the first) of an instruction whose bits are `w`, bit 0 the least significant bit
of the first byte; every bit from `nbits` up is 0. -/
def tableByte (nbits w k : Nat) : Byte := BitVec.ofNat 8 (w % 2 ^ nbits / 2 ^ (8 * k))

/-- The three bytes, the longest instruction's length (R50), that an instruction with bits `w` takes in memory. -/
def tableBytes (nbits w : Nat) : List Byte := [tableByte nbits w 0, tableByte nbits w 1, tableByte nbits w 2]

/-- The instruction the decoder reads from the word `w` of a row of spec/opcode_table.json. -/
def decodeTableWord (nbits w : Nat) : Option Instr :=
  match decode OpcodeMap.default (tableBytes nbits w) with
  | .ok (i, _) => some i
  | .error _ => none

end Sys2Proof
end

