-- ==== Sys2Proof/Machine/State.lean ====
section
/-! DEFINITION. The architectural state (spec/10_state.md), the errors a run can end in (spec/60_exceptions.md R131), what
the model answers where there is no step, and the state after reset (R22). -/

namespace Sys2Proof.Machine

/-- What the ALU is told to do (spec/42_alu.md R100). No instruction produces `other`; the constructor is kept so that the
ALU block's own failure can be stated (R100, R133). -/
inductive AluTag where
  | add
  | mul
  /-- A tag the ALU does not recognise. DESIGN CHOICE, safe: log entry 13. -/
  | other
deriving DecidableEq, Repr

/-- The `kind` that `OutOfBounds` records (R131, R134). -/
inductive BoundsKind where
  /-- An address outside 0 to 255. -/
  | addr
  /-- A register operand byte above 7. -/
  | reg
deriving DecidableEq, Repr

/-- The execution-time errors with the information each records (R131). -/
inductive ExecError where
  /-- The byte `ir` at `pc` is no opcode (R132). -/
  | illegalInstruction (pc ir : Byte)
  /-- The ALU was given a tag other than ADD or MUL; no instruction does (R133). -/
  | unsupportedOperation (tag : AluTag)
  /-- An address, which may be -1 or 256, or a register operand byte out of its range (R134). -/
  | outOfBounds (kind : BoundsKind) (value : Int)
  /-- Control left loaded memory: the `pc` of the failed fetch, or 256 (R135). -/
  | unexpectedEnd (addr : Nat)
deriving DecidableEq, Repr

/-- The run state (R16). -/
inductive RunState where
  | running
  /-- Normal termination, terminal. -/
  | halted
  /-- The run was aborted by an execution-time error, terminal (R136). -/
  | faulted (e : ExecError)
deriving DecidableEq, Repr

/-- Memory: the listed cells, in the canonical form `Memory.wf`; every other address reads as `unlistedByte` (R30, R44). -/
structure Memory where
  cells : List Host.Cell
deriving DecidableEq, Repr

/-- The complete architectural state (R10 to R21), with the launch input `LOADED_LEN` beside it (log entry 4). -/
structure State where
  /-- The general registers R0 to R7 (R10). -/
  x : Vector Byte 8
  /-- The program counter: the address of the next opcode byte (R13). -/
  pc : Byte
  /-- The stack pointer, which is not R7 (R14, R15). -/
  sp : Byte
  /-- The run state (R16). -/
  run : RunState
  /-- The 256 memory cells (R30). -/
  mem : Memory
  /-- `OUT`: the values emitted so far, the oldest first (R19). -/
  out : List Byte
  /-- `LOADED_LEN`: how many bytes the loader placed, 0 to 256 (R21). -/
  loadedLen : Fin 257
deriving DecidableEq, Repr

/-- The state after reset, before the loader writes: the reset table of R22 with the default `REG_RESET` and `MEM_FILL`
(log entries 2, 3) and nothing loaded (log entry 4). -/
def State.reset : State :=
  { x := #v[defaultRegReset, defaultRegReset, defaultRegReset, defaultRegReset, defaultRegReset, defaultRegReset,
      defaultRegReset, 255]
    pc := 0
    sp := 255
    run := .running
    mem := ⟨[]⟩
    out := []
    loadedLen := 0 }

/-- Why `step` answers no next state: the engine has already stopped (R77). Raising an execution-time error is NOT one of
these; it is a next state whose `run` is `FAULTED` (R136). Both are raised by `step` alone, on a state that is not
`RUNNING`, and are safe: such a state has no successor in the hardware either. -/
inductive Fault where
  /-- `run = HALTED`: the run ended normally. Raised by `step`; safe. -/
  | engineHalted
  /-- `run = FAULTED(e, info)`: the run was aborted by `e`, which the caller receives (R79). Raised by `step`; safe. -/
  | runAborted (e : ExecError)
deriving DecidableEq, Repr

/-- Why an instruction has no meaning in the model. -/
inductive Refusal where
  /-- An arm of `exec` whose instruction is not modelled yet. Raised by no arm: all nine have a meaning; it would be safe. -/
  | notModelled (mnemonic : String)
deriving DecidableEq, Repr

end Sys2Proof.Machine
end

