-- ==== Sys2Proof/Machine/Ops.lean ====
section
/-! DEFINITION. The named operations over registers, memory, `pc` and `sp` that the nine meanings share
(spec/00_scope.md R8), and raising an execution-time error (spec/60_exceptions.md R136). -/

namespace Sys2Proof.Machine

/-! ## Memory cells -/

/-- The byte a list of cells holds at an address. -/
def cellsRead : List Host.Cell → Nat → Byte
  | [], _ => unlistedByte
  | (b, w) :: rest, a => if a = b then w else cellsRead rest a

/-- The cells with the byte `v` put at address `a`, in its place by address. -/
def cellsInsert : List Host.Cell → Nat → Byte → List Host.Cell
  | [], a, v => [(a, v)]
  | (b, w) :: rest, a, v =>
    if a < b then (a, v) :: (b, w) :: rest
    else if a = b then (a, v) :: rest
    else (b, w) :: cellsInsert rest a v

/-- The cells with the byte `v` at address `a`; a cell that would equal what an unlisted address reads as is removed. -/
def cellsWrite (cells : List Host.Cell) (a : Nat) (v : Byte) : List Host.Cell :=
  if v = unlistedByte then cells.filter (fun c => c.1 != a) else cellsInsert cells a v

/-- The byte at an address (R30). -/
def Memory.read (m : Memory) (a : Nat) : Byte := cellsRead m.cells a

/-- Memory with `v` at address `a` and every other cell as before (R32). -/
def Memory.write (m : Memory) (a : Nat) (v : Byte) : Memory := ⟨cellsWrite m.cells a v⟩

/-- The canonical form: addresses strictly rising and below 256 (R30), and no cell equal to what an unlisted address
reads as. -/
abbrev Memory.wf (m : Memory) : Prop :=
  m.cells.Pairwise (fun p q => p.1 < q.1) ∧ ∀ c ∈ m.cells, c.1 < 256 ∧ c.2 ≠ unlistedByte

/-! ## Register, pc, sp, output accessors -/

/-- `x[r]` (R10). No register is hard-wired. -/
def State.reg (s : State) (r : Fin 8) : Byte := s.x[r]

/-- `x[r] <- v` (R11). A byte is already reduced modulo 256. -/
def State.setReg (s : State) (r : Fin 8) (v : Byte) : State := { s with x := s.x.set r v }

/-- `pc <- t` (R8). -/
def State.setPc (s : State) (t : Byte) : State := { s with pc := t }

/-- `sp <- t` (R8). -/
def State.setSp (s : State) (t : Byte) : State := { s with sp := t }

/-- `Emit(v)`: append `v` to `OUT` (R8, R19). The output boundary accepts every value at once. -/
def State.emit (s : State) (v : Byte) : State := { s with out := s.out ++ [v] }

/-- `HALTED` (R16). -/
def State.halt (s : State) : State := { s with run := .halted }

/-- `mem[a] <- v` (R32): the one cell changes and nothing else. -/
def State.setByte (s : State) (a : Nat) (v : Byte) : State := { s with mem := s.mem.write a v }

/-! ## The memory interface -/

/-- `MemRead(addr, 1)` with its range check; no side effect (R31). -/
def memRead (addr : Int) (s : State) : Except ExecError Byte :=
  if 0 ≤ addr ∧ addr ≤ 255 then .ok (s.mem.read addr.toNat) else .error (.outOfBounds .addr addr)

/-- `MemWrite(addr, 1, v)` with its range check (R32). -/
def memWrite (addr : Int) (v : Byte) (s : State) : Except ExecError State :=
  if 0 ≤ addr ∧ addr ≤ 255 then .ok (s.setByte addr.toNat v) else .error (.outOfBounds .addr addr)

/-! ## Taking an execution-time error -/

/-- `raise E(info)`: `run <- FAULTED(E, info)` and nothing else. Nothing is saved, no mode changes and control goes
nowhere (R136); there is no return (R138). -/
def State.raise (s : State) (e : ExecError) : State := { s with run := .faulted e }

/-- An instruction's pseudocode, run on `s`: its final state, or, where it raised, `s` with the error taken. A `raise`
stands before the first write, so a faulting instruction changes nothing but `run` (R8, R75, R136). -/
def attempt (s : State) (body : Except ExecError State) : Host.Outcome State Fault Refusal :=
  match body with
  | .ok t => .next t
  | .error e => .next (s.raise e)

/-- The number spec/60_exceptions.md R131 gives an error. No rule depends on it (D12). -/
def ExecError.code : ExecError → Nat
  | .illegalInstruction _ _  => 1
  | .unsupportedOperation _  => 2
  | .outOfBounds _ _         => 3
  | .unexpectedEnd _         => 4

/-! ## The sequential pc update -/

/-- `advance(w)` for an instruction other than `HLT` (spec/40_cycle.md R76): `pc + w`, or, where that passes 255, `pc`
wraps to 0 and the run ends in `UnexpectedEnd(256)`, everything the instruction wrote being kept. -/
def advance (w : Nat) (s : State) : State :=
  if s.pc.toNat + w ≤ 255 then s.setPc (BitVec.ofNat 8 (s.pc.toNat + w))
  else (s.setPc 0).raise (.unexpectedEnd 256)

end Sys2Proof.Machine
end

