-- ==== Sys2Proof/Machine/Operands.lean ====
section
/-! DEFINITION. The operand forms (spec/30_encoding.md R52, R53) and the one addressing mode, stack-pointer implicit
(spec/43_stack.md, section 1). -/

namespace Sys2Proof.Machine

/-- `regidx(k)`: the register that operand byte `k` names; `OutOfBounds(REG, k)` for 8 to 255, with no reduction modulo 8
(R53). -/
def regidx (k : Byte) : Except ExecError (Fin 8) :=
  if h : k.toNat < 8 then .ok ⟨k.toNat, h⟩ else .error (.outOfBounds .reg k.toNat)

/-- The `sp` after a pre-decrement, which is also the address stored to: `sp - 1`, or `OutOfBounds(ADDR, -1)` at `sp = 0`
(R110, R120). -/
def storeSlot (s : State) : Except ExecError Byte :=
  if s.sp = 0 then .error (.outOfBounds .addr (-1)) else .ok (s.sp - 1)

/-- The `sp` after a post-increment: `sp + 1`, or `OutOfBounds(ADDR, 256)` at `sp = 255`, the empty stack (R111, R121). -/
def afterLoad (s : State) : Except ExecError Byte :=
  if s.sp = 255 then .error (.outOfBounds .addr 256) else .ok (s.sp + 1)

/-- `CALL`'s return address `pc + 2`; `OutOfBounds(ADDR, pc + 2)` where no byte can hold it, which a fetched `CALL` meets
only at address 254 (R120; log entry 9 for address 255). -/
def returnAddress (s : State) : Except ExecError Byte :=
  if s.pc.toNat + 2 ≤ 255 then .ok (BitVec.ofNat 8 (s.pc.toNat + 2))
  else .error (.outOfBounds .addr (s.pc.toNat + 2 : Nat))

end Sys2Proof.Machine
end

