-- ==== Sys2Proof/Machine/Flags.lean ====
section
/-! DEFINITION. The results the ALU computes (spec/42_alu.md R100, R103). The core has no flags register and no condition
codes (spec/10_state.md R18), so there is no flag computation: the carry of a sum and the high byte of a product are
recorded nowhere. -/

namespace Sys2Proof.Machine

/-- `alu(tag, p, q)`: the sum or product of the unsigned operands, computed exactly and reduced modulo 256;
`UnsupportedOperation(tag)` for any other tag (R100). -/
def alu (tag : AluTag) (p q : Byte) : Except ExecError Byte :=
  match tag with
  | .add => .ok (BitVec.ofNat 8 (p.toNat + q.toNat))
  | .mul => .ok (BitVec.ofNat 8 (p.toNat * q.toNat))
  | .other => .error (.unsupportedOperation .other)

/-- `alu_op(tag, ra, rb)`: `x[ra] <- alu(tag, x[ra], x[rb])`, both sources read before the write (R100). -/
def aluOp (tag : AluTag) (ra rb : Fin 8) (s : State) : Except ExecError State := do
  let r ← alu tag (s.reg ra) (s.reg rb)
  return s.setReg ra r

end Sys2Proof.Machine
end

