-- ==== Sys2Proof/Machine/Arith.lean ====
section
/-! DEFINITION. MUL and ADD (spec/42_alu.md). The first operand's register index is checked before the second's. -/

namespace Sys2Proof.Machine

/-- `MUL regA, regB` (R101). -/
def execMul (a b : Byte) (s : State) : Host.Outcome State Fault Refusal :=
  attempt s do
    let ra ← regidx a
    let rb ← regidx b
    let t ← aluOp .mul ra rb s
    return advance 3 t

/-- `ADD regA, regB` (R102). -/
def execAdd (a b : Byte) (s : State) : Host.Outcome State Fault Refusal :=
  attempt s do
    let ra ← regidx a
    let rb ← regidx b
    let t ← aluOp .add ra rb s
    return advance 3 t

end Sys2Proof.Machine
end

