-- ==== Sys2Proof/Machine/Control.lean ====
section
/-! DEFINITION. CALL and RET (spec/44_call_return.md), the only control-transfer instructions (R124). -/

namespace Sys2Proof.Machine

/-- `CALL reg` (R120): every check precedes the writes; the target is taken as it is. -/
def execCall (a : Byte) (s : State) : Host.Outcome State Fault Refusal :=
  attempt s do
    let r ← regidx a
    let slot ← storeSlot s
    let ret ← returnAddress s
    let t ← memWrite slot.toNat ret (s.setSp slot)
    return t.setPc (s.reg r)

/-- `RET` (R121): the byte on top of the stack becomes `pc`, whatever pushed it. -/
def execRet (s : State) : Host.Outcome State Fault Refusal :=
  attempt s do
    let sp' ← afterLoad s
    let t ← memRead s.sp.toNat s
    return (s.setPc t).setSp sp'

end Sys2Proof.Machine
end

