-- ==== Sys2Proof/Machine/LoadPrintHalt.lean ====
section
/-! DEFINITION. LDI, PRN, HLT (spec/41_load_print_halt.md). -/

namespace Sys2Proof.Machine

/-- `LDI reg, immediate` (R90). -/
def execLdi (a imm : Byte) (s : State) : Host.Outcome State Fault Refusal :=
  attempt s do
    let d ← regidx a
    return advance 3 (s.setReg d imm)

/-- `PRN reg` (R91). -/
def execPrn (a : Byte) (s : State) : Host.Outcome State Fault Refusal :=
  attempt s do
    let r ← regidx a
    return advance 2 (s.emit (s.reg r))

/-- `HLT` (R92): the run ends normally and `pc` steps on modulo 256; at `pc = 255` that is 0 and no fault (R76). -/
def execHlt (s : State) : Host.Outcome State Fault Refusal :=
  .next (s.halt.setPc (BitVec.ofNat 8 (s.pc.toNat + 1)))

end Sys2Proof.Machine
end

