-- ==== Sys2Proof/Machine/Stack.lean ====
section
/-! DEFINITION. PUSH and POP (spec/43_stack.md). -/

namespace Sys2Proof.Machine

/-- `PUSH reg` (R110): the new `sp` is the address written. -/
def execPush (a : Byte) (s : State) : Host.Outcome State Fault Refusal :=
  attempt s do
    let r ← regidx a
    let slot ← storeSlot s
    let t ← memWrite slot.toNat (s.reg r) (s.setSp slot)
    return advance 2 t

/-- `POP reg` (R111): memory is read at the old `sp` and no cell changes. -/
def execPop (a : Byte) (s : State) : Host.Outcome State Fault Refusal :=
  attempt s do
    let d ← regidx a
    let sp' ← afterLoad s
    let v ← memRead s.sp.toNat s
    return advance 2 ((s.setReg d v).setSp sp')

end Sys2Proof.Machine
end

