-- ==== Sys2Proof/Machine/Fetch.lean ====
section
/-! DEFINITION. Fetch and decode: steps 1 to 5 of spec/40_cycle.md R70 (R71 to R74), and where the host's helper places a
word for the next fetch. -/

namespace Sys2Proof.Machine

/-- Steps 1 to 5 of R70. The fetch limit comes first (R71), then the opcode (R74), then the limit on the whole instruction
(R73); only the operand bytes the opcode consumes are read (R72). -/
def fetch (m : OpcodeMap) (s : State) : Except ExecError Instr :=
  if s.loadedLen.val ≤ s.pc.toNat then .error (.unexpectedEnd s.pc.toNat)
  else do
    let ir ← memRead s.pc.toNat s
    match m.lookup ir with
    | none => .error (.illegalInstruction s.pc ir)
    | some op =>
      if s.loadedLen.val ≤ s.pc.toNat + op.nops then .error (.unexpectedEnd s.pc.toNat)
      else do
        let a ← if 1 ≤ op.nops then memRead (s.pc.toNat + 1 : Nat) s else .ok 0
        let b ← if op.nops = 2 then memRead (s.pc.toNat + 2 : Nat) s else .ok 0
        return op.assemble a b

/-- The loaded bytes from `pc` up, lowest address first: what an instruction at `pc` may consist of (R71, R73). -/
def State.loadedBytes (s : State) : List Byte :=
  (List.range (s.loadedLen.val - s.pc.toNat)).map (fun k => s.mem.read (s.pc.toNat + k))

/-- Memory with the bytes placed one after the other from address `a`; a byte past address 255 has no cell (R30) and is
dropped. -/
def placeBytes (a : Nat) : List Byte → Memory → Memory
  | [], mem => mem
  | b :: rest, mem => placeBytes (a + 1) rest (if a ≤ 255 then mem.write a b else mem)

/-- `LOADED_LEN` raised, where it is less, so that `n` bytes from address `a` count as loaded. -/
def raiseLoadedLen (len : Fin 257) (a n : Nat) : Fin 257 :=
  ⟨max len.val (min (a + n) 256), by omega⟩

end Sys2Proof.Machine
end

