-- ==== Sys2Proof/Machine/Step.lean ====
section
/-! DEFINITION. One step (spec/40_cycle.md R70): fetch, decode, execute. -/

namespace Sys2Proof.Machine

/-- One step with the opcode assignment `m` (R70). A fetch that fails raises its error; a state that is not `RUNNING` has
no step (R77). -/
def stepWith (m : OpcodeMap) (s : State) : Host.Outcome State Fault Refusal :=
  match s.run with
  | .running =>
    match fetch m s with
    | .ok i => exec i s
    | .error e => .next (s.raise e)
  | .halted => .fault .engineHalted
  | .faulted e => .fault (.runAborted e)

/-- One step of the machine with the opcode bytes of spec/opcode_table.json. -/
def step (s : State) : Host.Outcome State Fault Refusal := stepWith OpcodeMap.default s

/-- `s` with the bytes of the table word `w` at `pc`, counted as loaded, and the engine running, so that the next step
fetches exactly them (log entry 5). -/
def State.withFetchWord (s : State) (nbits w : Nat) : State :=
  { s with
    mem := placeBytes s.pc.toNat (tableBytes nbits w) s.mem
    loadedLen := raiseLoadedLen s.loadedLen s.pc.toNat 3
    run := .running }

end Sys2Proof.Machine
end

