-- ==== Sys2Proof/Machine/Loader.lean ====
section
/-! DEFINITION. The loader boundary: how a run is prepared (spec/70_reset_and_hazards.md R160, spec/10_state.md R21, R22).
Reading the program's text file is outside the core (spec/00_scope.md R4). -/

namespace Sys2Proof.Machine

/-- Memory with every one of the 256 cells holding `v`. -/
def Memory.filled (v : Byte) : Memory :=
  ⟨if v = unlistedByte then [] else (List.range 256).map (fun a => (a, v))⟩

/-- Step 1 of R160: every piece of state at its reset value (R22), for the configuration `c`; nothing is loaded yet. -/
def resetWith (c : Config) : State :=
  { x := #v[c.regReset, c.regReset, c.regReset, c.regReset, c.regReset, c.regReset, c.regReset, 255]
    pc := 0
    sp := 255
    run := .running
    mem := Memory.filled c.memFill
    out := []
    loadedLen := 0 }

/-- The loader's writes: byte after byte in ascending order from address `k`, through the engine's own `MemWrite` (R160).
A byte for address 256 is `OutOfBounds` and the load fails (D18). -/
def loadFrom (k : Nat) : List Byte → State → Except ExecError State
  | [], s => .ok s
  | b :: rest, s => do
    let t ← memWrite k b s
    loadFrom (k + 1) rest t

/-- Steps 1 and 2 of R160: the state from which the engine runs `program`, `LOADED_LEN` being its length (R21). An error
means that the run does not start. -/
def launch (c : Config) (program : List Byte) : Except ExecError State := do
  let s ← loadFrom 0 program (resetWith c)
  if h : program.length < 257 then return { s with loadedLen := ⟨program.length, h⟩ }
  else .error (.outOfBounds .addr 256)

end Sys2Proof.Machine
end

