-- ==== Sys2Proof/Safety.lean ====
section
/-! DEFINITION. Runs and how they end (spec/40_cycle.md R78, R79), and the invariant of the state (spec/10_state.md R23). -/

namespace Sys2Proof.Machine

/-- The state `k` steps after `s`, or the one where the run stopped, if it stopped before (R78, R79). `k` is fuel of the
reader's, no outcome of the machine (R170). -/
def runFor (m : OpcodeMap) : Nat → State → State
  | 0, s => s
  | k + 1, s =>
    match stepWith m s with
    | .next t => runFor m k t
    | .fault _ => s
    | .refused _ => s

/-- The run from `s` ends normally: it reaches `HALTED` (R79). -/
def EndsNormally (m : OpcodeMap) (s : State) : Prop := ∃ k, (runFor m k s).run = .halted

/-- The run from `s` ends abnormally with the error `e` (R79). -/
def EndsWith (m : OpcodeMap) (s : State) (e : ExecError) : Prop := ∃ k, (runFor m k s).run = .faulted e

/-- The information an error records is what spec/60_exceptions.md R131, R134, R135 give it: an illegal byte is no opcode;
an address out of bounds is -1 or 256; a register operand out of bounds is 8 to 255; control leaves loaded memory at 0 to
256; and no error is `UnsupportedOperation` (R133). -/
def ExecError.Legal (m : OpcodeMap) : ExecError → Prop
  | .illegalInstruction _ ir => m.lookup ir = none
  | .unsupportedOperation _ => False
  | .outOfBounds .addr v => v = -1 ∨ v = 256
  | .outOfBounds .reg v => 8 ≤ v ∧ v ≤ 255
  | .unexpectedEnd a => a ≤ 256

/-- The invariant of the state: memory keeps its canonical form, with every listed cell at an address 0 to 255, and a
faulted engine records what the spec gives its error. The other ranges of R23 are the fields' types. -/
def State.Inv (m : OpcodeMap) (s : State) : Prop :=
  s.mem.wf ∧ ∀ e, s.run = .faulted e → e.Legal m

/-- The sequential advance by `w` bytes from the instruction at `s.pc`, as `t` shows it (R76). R73 keeps `pc + w` at 256
or less for a fetched instruction. -/
def AdvancesBy (w : Nat) (s t : State) : Prop :=
  (s.pc.toNat + w ≤ 255 → t.pc.toNat = s.pc.toNat + w ∧ t.run = s.run) ∧
    (s.pc.toNat + w = 256 → t.pc = 0 ∧ t.run = .faulted (.unexpectedEnd 256))

/-- Every byte of memory reads in `t` as in `s`. -/
def SameMemory (s t : State) : Prop := ∀ a, t.mem.read a = s.mem.read a

/-- Every byte of memory outside address `b` reads in `t` as in `s`. -/
def SameMemoryBut (b : Nat) (s t : State) : Prop := ∀ a, a ≠ b → t.mem.read a = s.mem.read a

/-- Every general register holds in `t` what it holds in `s`. -/
def SameRegs (s t : State) : Prop := ∀ r, t.reg r = s.reg r

/-- Every general register but `d` holds in `t` what it holds in `s`. -/
def SameRegsBut (d : Fin 8) (s t : State) : Prop := ∀ r, r ≠ d → t.reg r = s.reg r

/-- The operand byte that names the general register an instruction writes: `LDI`, `MUL`, `ADD` and `POP` write one
(spec/10_state.md R11, R24). -/
def destOperand : Instr → Option Byte
  | .ldi a _ => some a
  | .prn _   => none
  | .hlt     => none
  | .mul a _ => some a
  | .add a _ => some a
  | .push _  => none
  | .pop a   => some a
  | .call _  => none
  | .ret     => none

/-- The address an instruction stores to in `s`, by the meanings' own checks and `storeSlot`: `PUSH` and `CALL` store one
byte (spec/20_memory.md R33); none where a check raises or the instruction does not store. -/
def storeAddress (i : Instr) (s : State) : Option Nat :=
  match i with
  | .push a =>
    match regidx a, storeSlot s with
    | .ok _, .ok slot => some slot.toNat
    | _, _ => none
  | .call a =>
    match regidx a, storeSlot s, returnAddress s with
    | .ok _, .ok slot, .ok _ => some slot.toNat
    | _, _, _ => none
  | _ => none

/-- Two states that no program can tell apart: they agree in every register, `pc`, `sp`, `run`, `OUT` and `LOADED_LEN`,
in the cells below `LOADED_LEN`, which a fetch reads, and in the stack's cells, `sp` to 254, which a load reads
(spec/20_memory.md R44). -/
def AgreeWhereRead (s t : State) : Prop :=
  SameRegs s t ∧ t.pc = s.pc ∧ t.sp = s.sp ∧ t.run = s.run ∧ t.out = s.out ∧ t.loadedLen = s.loadedLen ∧
    (∀ a, a < s.loadedLen.val → t.mem.read a = s.mem.read a) ∧
    ∀ a, s.sp.toNat ≤ a → a ≤ 254 → t.mem.read a = s.mem.read a

end Sys2Proof.Machine
end

