-- ==== Sys2Proof/Certificates/Slice0/Obligations.lean ====
section
/-! DEFINITION. The statements for the provers. Each docstring names the rule of spec/ it formalises, or the section and
the spec's own decision (D<n>) it rests on. -/

open Sys2Proof Sys2Proof.Machine

/-! ## Encoding -/

/-- For EVERY assignment of distinct opcode bytes (30_encoding.md R55, D1), decoding the bytes of an instruction, whatever
follows them, gives the instruction back with every operand byte, and the bytes that follow. -/
def Obligations.DecodeEncodeRoundTrip : Prop :=
  ∀ m : OpcodeMap, m.Distinct → ∀ (i : Instr) (rest : List Byte), decode m (encode m i ++ rest) = .ok (i, rest)

/-- What decodes to an instruction is exactly that instruction's bytes and the rest: no other bytes decode to it. -/
def Obligations.DecodedBytesAreTheEncoding : Prop :=
  ∀ (m : OpcodeMap) (bytes : List Byte) (i : Instr) (rest : List Byte),
    decode m bytes = .ok (i, rest) → bytes = encode m i ++ rest

/-- 30_encoding.md section 4: of the 256 byte values, 247 are illegal as opcodes, whatever the distinct assignment, and a
byte is legal exactly if it is one of the nine. -/
def Obligations.IllegalOpcodesNumber247 : Prop :=
  ∀ m : OpcodeMap, m.Distinct →
    (∀ ir : Byte, (m.lookup ir).isSome ↔ ∃ op, m.byte op = ir) ∧
      (List.range 256).countP (fun n => (m.lookup (BitVec.ofNat 8 n)).isNone) = 247

/-- The words of spec/95_test_vectors.md 2.1 to 2.5 under the table's opcode bytes (six of them the spec's defaults, D1,
log entry 1). -/
def Obligations.SpecWordsDecode : Prop :=
  decode OpcodeMap.default [0x82, 0x00, 0x08] = .ok (.ldi 0 8, []) ∧
  decode OpcodeMap.default [0x47, 0x07] = .ok (.prn 7, []) ∧
  decode OpcodeMap.default [0x01] = .ok (.hlt, []) ∧
  decode OpcodeMap.default [0xA2, 0x00, 0x01] = .ok (.mul 0 1, []) ∧
  decode OpcodeMap.default [0xA0, 0x09, 0x08] = .ok (.add 9 8, []) ∧
  decode OpcodeMap.default [0x45, 0x03] = .ok (.push 3, []) ∧
  decode OpcodeMap.default [0x46, 0x0A] = .ok (.pop 10, []) ∧
  decode OpcodeMap.default [0x50, 0x01] = .ok (.call 1, []) ∧
  decode OpcodeMap.default [0x11] = .ok (.ret, []) ∧
  decode OpcodeMap.default [0x00] = .error (.illegalOpcode 0)

/-! ## Fetch and step -/

/-- When the loaded bytes from `pc` up decode to `i`, a step of a running engine is `exec i`, with nothing around it: the
meaning itself moves `pc`. -/
def Obligations.StepRunsTheDecodedInstruction : Prop :=
  (∀ (m : OpcodeMap) (s : State) (i : Instr) (rest : List Byte), s.run = .running →
    decode m s.loadedBytes = .ok (i, rest) → stepWith m s = exec i s) ∧
  (∀ (s : State) (i : Instr) (rest : List Byte), s.run = .running →
    decode OpcodeMap.default s.loadedBytes = .ok (i, rest) → step s = exec i s)

/-- 60_exceptions.md R132: a byte at `pc` that is no opcode ends the run in `IllegalInstruction(pc, ir)` and changes
nothing but `run`. -/
def Obligations.UnknownOpcodeRaisesIllegalInstruction : Prop :=
  ∀ (m : OpcodeMap) (s : State), s.run = .running → s.pc.toNat < s.loadedLen.val →
    (∀ op, m.byte op ≠ s.mem.read s.pc.toNat) →
    stepWith m s = .next (s.raise (.illegalInstruction s.pc (s.mem.read s.pc.toNat)))

/-- 40_cycle.md sections 2 and 4 (D5, D6, D11, D13): a fetch at or past `LOADED_LEN` raises `UnexpectedEnd(pc)` whatever
byte is there, and so does an instruction that `LOADED_LEN` cuts off, whatever its operands; nothing but `run` changes. -/
def Obligations.FetchPastLoadedMemoryRaisesUnexpectedEnd : Prop :=
  ∀ (m : OpcodeMap) (s : State), s.run = .running →
    (s.loadedLen.val ≤ s.pc.toNat → stepWith m s = .next (s.raise (.unexpectedEnd s.pc.toNat))) ∧
    (∀ op, s.pc.toNat < s.loadedLen.val → m.lookup (s.mem.read s.pc.toNat) = some op →
      s.loadedLen.val ≤ s.pc.toNat + op.nops → stepWith m s = .next (s.raise (.unexpectedEnd s.pc.toNat)))

/-- 40_cycle.md section 2 (R73's consequence, D6): fetch never raises `OutOfBounds`, wherever `pc` stands. -/
def Obligations.FetchNeverRaisesOutOfBounds : Prop :=
  ∀ (m : OpcodeMap) (s : State) (kind : BoundsKind) (v : Int), fetch m s ≠ .error (.outOfBounds kind v)

/-- 30_encoding.md section 1 and 20_memory.md section 10: what is fetched depends on `pc`, on `LOADED_LEN` and on the
instruction's own bytes, and on nothing else of the state: there is no prefix, no mode and no prefetched byte. -/
def Obligations.FetchDependsOnlyOnTheBytesAtPc : Prop :=
  ∀ (m : OpcodeMap) (s t : State), s.pc = t.pc → s.loadedLen = t.loadedLen →
    (∀ k, k ≤ 2 → s.pc.toNat + k < s.loadedLen.val → s.mem.read (s.pc.toNat + k) = t.mem.read (s.pc.toNat + k)) →
    fetch m s = fetch m t

/-- 40_cycle.md R78: on a `RUNNING` state the step is total, for every opcode assignment: exactly one next state exists
(a raised error is a next state whose `run` is `FAULTED`, log entry 6). -/
def Obligations.RunningStateHasExactlyOneNextState : Prop :=
  ∀ (m : OpcodeMap) (s : State), s.run = .running →
    ∃ t, stepWith m s = .next t ∧ ∀ u, stepWith m s = .next u → u = t

/-- 40_cycle.md section 6 (D22): a stopped engine has no step. That the model answers a `Fault` there which names how the
run ended is the model's choice, log entry 6. -/
def Obligations.StoppedEngineHasNoStep : Prop :=
  ∀ (m : OpcodeMap) (s : State),
    (s.run = .halted → stepWith m s = .fault .engineHalted) ∧
    (∀ e, s.run = .faulted e → stepWith m s = .fault (.runAborted e))

/-- The word that `withFetchWord` places (the model's own helper, log entry 5) is the one the next step runs, for every
table word that decodes and every `pc` with room for three bytes. -/
def Obligations.PlacedWordIsTheNextInstruction : Prop :=
  ∀ (s : State) (nbits w : Nat) (i : Instr), s.pc.toNat ≤ 253 → decodeTableWord nbits w = some i →
    step (s.withFetchWord nbits w) = exec i (s.withFetchWord nbits w)

/-! ## The instructions, each with every path its rule gives it -/

/-- 41_load_print_halt.md R90: `LDI` writes the immediate to its register and advances by 3; a register operand above 7
raises `OutOfBounds(REG, a)` with nothing written. -/
def Obligations.LdiLoadsTheImmediate : Prop :=
  ∀ (m : OpcodeMap) (s : State) (a imm : Byte),
    encode m (.ldi a imm) = [0x82, a, imm] ∧
    (∀ d : Fin 8, a.toNat = d.val → ∃ t, exec (.ldi a imm) s = .next t ∧ t.reg d = imm ∧ SameRegsBut d s t ∧
      SameMemory s t ∧ t.sp = s.sp ∧ t.out = s.out ∧ t.loadedLen = s.loadedLen ∧ AdvancesBy 3 s t) ∧
    (8 ≤ a.toNat → exec (.ldi a imm) s = .next (s.raise (.outOfBounds .reg a.toNat)))

/-- 41_load_print_halt.md R91: `PRN` appends the register's value to `OUT` and advances by 2; a register operand above 7
raises `OutOfBounds(REG, a)` with nothing emitted. -/
def Obligations.PrnEmitsTheRegister : Prop :=
  ∀ (m : OpcodeMap) (s : State) (a : Byte),
    encode m (.prn a) = [0x47, a] ∧
    (∀ r : Fin 8, a.toNat = r.val → ∃ t, exec (.prn a) s = .next t ∧ t.out = s.out ++ [s.reg r] ∧ SameRegs s t ∧
      SameMemory s t ∧ t.sp = s.sp ∧ t.loadedLen = s.loadedLen ∧ AdvancesBy 2 s t) ∧
    (8 ≤ a.toNat → exec (.prn a) s = .next (s.raise (.outOfBounds .reg a.toNat)))

/-- 41_load_print_halt.md, HLT: the run ends in `HALTED`, `pc` becomes `(pc + 1) mod 256` (0 at address 255 is the spec's
decision D7), and nothing else changes; `HLT` never raises. -/
def Obligations.HltHalts : Prop :=
  ∀ (m : OpcodeMap) (s : State),
    encode m .hlt = [0x01] ∧
    ∃ t, exec .hlt s = .next t ∧ t.run = .halted ∧ t.pc.toNat = (s.pc.toNat + 1) % 256 ∧ SameRegs s t ∧
      SameMemory s t ∧ t.sp = s.sp ∧ t.out = s.out ∧ t.loadedLen = s.loadedLen

/-- 42_alu.md R101: `MUL` writes the product modulo 256 to the first register and advances by 3, also where the two
registers are one; the first register operand is checked before the second. -/
def Obligations.MulWritesTheProductModulo256 : Prop :=
  ∀ (m : OpcodeMap) (s : State) (a b : Byte),
    encode m (.mul a b) = [m.mul, a, b] ∧
    (∀ ra rb : Fin 8, a.toNat = ra.val → b.toNat = rb.val → ∃ t, exec (.mul a b) s = .next t ∧
      (t.reg ra).toNat = ((s.reg ra).toNat * (s.reg rb).toNat) % 256 ∧ SameRegsBut ra s t ∧
      SameMemory s t ∧ t.sp = s.sp ∧ t.out = s.out ∧ t.loadedLen = s.loadedLen ∧ AdvancesBy 3 s t) ∧
    (8 ≤ a.toNat → exec (.mul a b) s = .next (s.raise (.outOfBounds .reg a.toNat))) ∧
    (a.toNat ≤ 7 → 8 ≤ b.toNat → exec (.mul a b) s = .next (s.raise (.outOfBounds .reg b.toNat)))

/-- 42_alu.md R102: `ADD` writes the sum modulo 256 to the first register and advances by 3, also where the two registers
are one; the first register operand is checked before the second. -/
def Obligations.AddWritesTheSumModulo256 : Prop :=
  ∀ (m : OpcodeMap) (s : State) (a b : Byte),
    encode m (.add a b) = [m.add, a, b] ∧
    (∀ ra rb : Fin 8, a.toNat = ra.val → b.toNat = rb.val → ∃ t, exec (.add a b) s = .next t ∧
      (t.reg ra).toNat = ((s.reg ra).toNat + (s.reg rb).toNat) % 256 ∧ SameRegsBut ra s t ∧
      SameMemory s t ∧ t.sp = s.sp ∧ t.out = s.out ∧ t.loadedLen = s.loadedLen ∧ AdvancesBy 3 s t) ∧
    (8 ≤ a.toNat → exec (.add a b) s = .next (s.raise (.outOfBounds .reg a.toNat))) ∧
    (a.toNat ≤ 7 → 8 ≤ b.toNat → exec (.add a b) s = .next (s.raise (.outOfBounds .reg b.toNat)))

/-- 43_stack.md section 2: `PUSH` lowers `sp` by one, stores the register at the new `sp` and advances by 2. A register
operand above 7 raises first (D2), then `sp = 0` raises `OutOfBounds(ADDR, -1)` (D8), with nothing written. -/
def Obligations.PushStoresBelowTheStackPointer : Prop :=
  ∀ (m : OpcodeMap) (s : State) (a : Byte),
    encode m (.push a) = [m.push, a] ∧
    (∀ r : Fin 8, a.toNat = r.val → s.sp ≠ 0 → ∃ t, exec (.push a) s = .next t ∧
      t.sp.toNat + 1 = s.sp.toNat ∧ t.mem.read t.sp.toNat = s.reg r ∧ SameMemoryBut t.sp.toNat s t ∧ SameRegs s t ∧
      t.out = s.out ∧ t.loadedLen = s.loadedLen ∧ AdvancesBy 2 s t) ∧
    (8 ≤ a.toNat → exec (.push a) s = .next (s.raise (.outOfBounds .reg a.toNat))) ∧
    (a.toNat ≤ 7 → s.sp = 0 → exec (.push a) s = .next (s.raise (.outOfBounds .addr (-1))))

/-- 43_stack.md section 3: `POP` loads the register from the old `sp`, raises `sp` by one and advances by 2; no cell
changes. A register operand above 7 raises first (D2), then `sp = 255` raises `OutOfBounds(ADDR, 256)` (D9). -/
def Obligations.PopLoadsFromTheStackPointer : Prop :=
  ∀ (m : OpcodeMap) (s : State) (a : Byte),
    encode m (.pop a) = [m.pop, a] ∧
    (∀ d : Fin 8, a.toNat = d.val → s.sp ≠ 255 → ∃ t, exec (.pop a) s = .next t ∧
      t.reg d = s.mem.read s.sp.toNat ∧ t.sp.toNat = s.sp.toNat + 1 ∧ SameRegsBut d s t ∧ SameMemory s t ∧
      t.out = s.out ∧ t.loadedLen = s.loadedLen ∧ AdvancesBy 2 s t) ∧
    (8 ≤ a.toNat → exec (.pop a) s = .next (s.raise (.outOfBounds .reg a.toNat))) ∧
    (a.toNat ≤ 7 → s.sp = 255 → exec (.pop a) s = .next (s.raise (.outOfBounds .addr 256)))

/-- 44_call_return.md section 1: `CALL` lowers `sp` by one, stores `pc + 2` at the new `sp` and sets `pc` to the register.
It raises, in this order and with nothing written, for a register operand above 7 (D2), at `sp = 0` (D8) and at address
254 (D10). -/
def Obligations.CallPushesTheReturnAddressAndJumps : Prop :=
  ∀ (m : OpcodeMap) (s : State) (a : Byte),
    encode m (.call a) = [m.call, a] ∧
    (∀ r : Fin 8, a.toNat = r.val → s.sp ≠ 0 → s.pc.toNat + 2 ≤ 255 → ∃ t, exec (.call a) s = .next t ∧
      t.pc = s.reg r ∧ t.sp.toNat + 1 = s.sp.toNat ∧ (t.mem.read t.sp.toNat).toNat = s.pc.toNat + 2 ∧
      SameMemoryBut t.sp.toNat s t ∧ SameRegs s t ∧ t.out = s.out ∧ t.run = s.run ∧ t.loadedLen = s.loadedLen) ∧
    (8 ≤ a.toNat → exec (.call a) s = .next (s.raise (.outOfBounds .reg a.toNat))) ∧
    (a.toNat ≤ 7 → s.sp = 0 → exec (.call a) s = .next (s.raise (.outOfBounds .addr (-1)))) ∧
    (a.toNat ≤ 7 → s.sp ≠ 0 → s.pc = 254 → exec (.call a) s = .next (s.raise (.outOfBounds .addr 256)))

/-- 44_call_return.md section 2: `RET` sets `pc` to the byte at the old `sp` and raises `sp` by one; at `sp = 255` it
raises `OutOfBounds(ADDR, 256)` with nothing written (D9). -/
def Obligations.RetPopsThePc : Prop :=
  ∀ (m : OpcodeMap) (s : State),
    encode m .ret = [m.ret] ∧
    (s.sp ≠ 255 → ∃ t, exec .ret s = .next t ∧ t.pc = s.mem.read s.sp.toNat ∧ t.sp.toNat = s.sp.toNat + 1 ∧
      SameRegs s t ∧ SameMemory s t ∧ t.out = s.out ∧ t.run = s.run ∧ t.loadedLen = s.loadedLen) ∧
    (s.sp = 255 → exec .ret s = .next (s.raise (.outOfBounds .addr 256)))

/-! ## Frames, over every operand and every next state -/

/-- What `LDI`, `MUL`, `ADD`, `PRN` and `HLT` leave unchanged on every path: every register but the destination the
operand names, `sp`, every byte of memory, `LOADED_LEN`, and, but for `PRN`, `OUT`; `run` changes by `HLT` or an error alone. -/
def Obligations.FrameOfRegisterInstructions : Prop :=
  ∀ (i : Instr) (s t : State),
    ((∃ a imm, i = .ldi a imm) ∨ (∃ a b, i = .mul a b) ∨ (∃ a b, i = .add a b) ∨ (∃ a, i = .prn a) ∨ i = .hlt) →
    exec i s = .next t →
    (∀ r : Fin 8, destOperand i ≠ some (BitVec.ofNat 8 r.val) → t.reg r = s.reg r) ∧
    t.sp = s.sp ∧ SameMemory s t ∧ t.loadedLen = s.loadedLen ∧ ((∀ a, i ≠ .prn a) → t.out = s.out) ∧
    (t.run = s.run ∨ (i = .hlt ∧ t.run = .halted) ∨ ∃ e, t.run = .faulted e)

/-- What `PUSH` and `CALL` leave unchanged on every path: every register, `OUT`, `LOADED_LEN`, and every byte of memory
outside the one address that `storeAddress` computes, all of memory where nothing is stored; `run` changes by an error alone. -/
def Obligations.FrameOfStoringInstructions : Prop :=
  ∀ (i : Instr) (s t : State), ((∃ a, i = .push a) ∨ ∃ a, i = .call a) → exec i s = .next t →
    SameRegs s t ∧ t.out = s.out ∧ t.loadedLen = s.loadedLen ∧
    (∀ addr, storeAddress i s = some addr → SameMemoryBut addr s t) ∧ (storeAddress i s = none → SameMemory s t) ∧
    (t.run = s.run ∨ ∃ e, t.run = .faulted e)

/-- What `POP` and `RET` leave unchanged on every path: every register but the one `POP` names, every byte of memory
(90_conflicts.md C8), `OUT` and `LOADED_LEN`; `run` changes by an error alone. -/
def Obligations.FrameOfLoadingInstructions : Prop :=
  ∀ (i : Instr) (s t : State), ((∃ a, i = .pop a) ∨ i = .ret) → exec i s = .next t →
    (∀ r : Fin 8, destOperand i ≠ some (BitVec.ofNat 8 r.val) → t.reg r = s.reg r) ∧
    SameMemory s t ∧ t.out = s.out ∧ t.loadedLen = s.loadedLen ∧ (t.run = s.run ∨ ∃ e, t.run = .faulted e)

/-! ## Rules of the whole machine -/

/-- 10_state.md section 12 (the access matrix) read as a rule of steps: a step changes a register only by fetching an
instruction that names it as destination, a byte of memory only at the fetched instruction's store address, `OUT` only
by fetching a `PRN`, which appends the register it names, and `LOADED_LEN` never. -/
def Obligations.StepChangesOnlyWhatTheAccessMatrixAllows : Prop :=
  ∀ (m : OpcodeMap) (s t : State), stepWith m s = .next t →
    (∀ r : Fin 8, t.reg r ≠ s.reg r → ∃ i, fetch m s = .ok i ∧ destOperand i = some (BitVec.ofNat 8 r.val)) ∧
    (∀ a, t.mem.read a ≠ s.mem.read a → ∃ i, fetch m s = .ok i ∧ storeAddress i s = some a) ∧
    (t.out ≠ s.out → ∃ (a : Byte) (r : Fin 8), fetch m s = .ok (.prn a) ∧ a.toNat = r.val ∧ t.out = s.out ++ [s.reg r]) ∧
    t.loadedLen = s.loadedLen

/-- 10_state.md section 3: a step leaves `sp` alone, or lowers it by one for a `PUSH` or `CALL`, or raises it by one for a
`POP` or `RET`; it never wraps (D8, D9). -/
def Obligations.StackPointerMovesByOneAndNeverWraps : Prop :=
  ∀ (m : OpcodeMap) (s t : State), stepWith m s = .next t →
    t.sp = s.sp ∨
    (t.sp.toNat + 1 = s.sp.toNat ∧ ∃ a, fetch m s = .ok (.push a) ∨ fetch m s = .ok (.call a)) ∨
    (t.sp.toNat = s.sp.toNat + 1 ∧ ((∃ a, fetch m s = .ok (.pop a)) ∨ fetch m s = .ok .ret))

/-- 44_call_return.md section 4: an engine that goes on after an instruction other than `CALL` and `RET` goes on at the
next sequential address, `pc` plus the instruction's length, without a wrap. -/
def Obligations.OnlyCallAndRetTransferControl : Prop :=
  ∀ (m : OpcodeMap) (s t : State) (i : Instr), stepWith m s = .next t → fetch m s = .ok i → t.run = .running →
    (∀ a, i ≠ .call a) → i ≠ .ret → t.pc.toNat = s.pc.toNat + i.length

/-- 40_cycle.md section 6: a step ends in `HALTED` only by fetching a `HLT`. -/
def Obligations.OnlyHltHalts : Prop :=
  ∀ (m : OpcodeMap) (s t : State), stepWith m s = .next t → t.run = .halted → fetch m s = .ok .hlt

/-- 60_exceptions.md section 2 (D12, D14, D7): errors are precise. The state an error leaves is the state before the step
with only `run` changed; only `UnexpectedEnd(256)` keeps the instruction's writes, and it leaves `pc = 0`. -/
def Obligations.ErrorsArePrecise : Prop :=
  ∀ (m : OpcodeMap) (s t : State) (e : ExecError), stepWith m s = .next t → t.run = .faulted e →
    (e ≠ .unexpectedEnd 256 → t = s.raise e) ∧ (e = .unexpectedEnd 256 → t.pc = 0)

/-- 60_exceptions.md R133: no instruction encoding, in any state and under any opcode assignment, raises
`UnsupportedOperation`. -/
def Obligations.UnsupportedOperationIsUnreachable : Prop :=
  ∀ (m : OpcodeMap) (s t : State) (tag : AluTag), stepWith m s = .next t →
    t.run ≠ .faulted (.unsupportedOperation tag)

/-- 10_state.md sections 1 and 3: a register that the instruction does not name as an operand takes no part in it. For R7
this is what "not the stack pointer" means (90_conflicts.md C4): its value never touches `sp`, `pc` or memory unless
named. -/
def Obligations.UnnamedRegisterTakesNoPart : Prop :=
  ∀ (i : Instr) (s t : State) (q : Fin 8) (v : Byte), BitVec.ofNat 8 q.val ∉ i.regOperands →
    exec i s = .next t → exec i (s.setReg q v) = .next (t.setReg q v)

/-- 10_state.md section 7: no instruction reads `OUT`. What has been emitted before changes nothing of a step but that it
stays in front. -/
def Obligations.OutIsNeverRead : Prop :=
  ∀ (m : OpcodeMap) (s t : State) (earlier : List Byte), stepWith m s = .next t →
    stepWith m { s with out := earlier ++ s.out } = .next { t with out := earlier ++ t.out }

/-- 20_memory.md sections 4 and 10: a `PUSH` that stores on the opcode byte of the instruction after it completes, and the
very next step decodes the stored byte: an illegal one raises `IllegalInstruction`, a `HLT` halts. -/
def Obligations.NextFetchSeesThePushedByte : Prop :=
  ∀ (m : OpcodeMap) (s : State) (a : Byte) (r : Fin 8), s.run = .running → fetch m s = .ok (.push a) →
    a.toNat = r.val → s.sp.toNat = s.pc.toNat + 3 → s.pc.toNat + 2 < s.loadedLen.val →
    ∃ t, stepWith m s = .next t ∧ t.run = .running ∧ t.pc.toNat = s.pc.toNat + 2 ∧
      (m.lookup (s.reg r) = none → stepWith m t = .next (t.raise (.illegalInstruction t.pc (s.reg r)))) ∧
      (m.lookup (s.reg r) = some .hlt → ∃ u, stepWith m t = .next u ∧ u.run = .halted)

/-! ## The ALU and memory blocks -/

/-- 42_alu.md R100: the ALU's function on values, and its block: both sources are read before the destination is written. -/
def Obligations.AluAddsAndMultipliesModulo256 : Prop :=
  ∀ (p q : Byte) (s : State) (ra rb : Fin 8),
    (∃ r, alu .add p q = .ok r ∧ r.toNat = (p.toNat + q.toNat) % 256) ∧
    (∃ r, alu .mul p q = .ok r ∧ r.toNat = (p.toNat * q.toNat) % 256) ∧
    alu .other p q = .error (.unsupportedOperation .other) ∧
    (∀ tag r, alu tag (s.reg ra) (s.reg rb) = .ok r → aluOp tag ra rb s = .ok (s.setReg ra r)) ∧
    (∀ tag e, alu tag (s.reg ra) (s.reg rb) = .error e → aluOp tag ra rb s = .error e)

/-- 42_alu.md section 4: the algebra of R103 and the two's-complement reading of the low byte. -/
def Obligations.AluAlgebraAndSignedReading : Prop :=
  ∀ (p q u : Byte),
    alu .add p q = alu .add q p ∧ alu .mul p q = alu .mul q p ∧
    (alu .add p q >>= fun r => alu .add r u) = (alu .add q u >>= fun r => alu .add p r) ∧
    (alu .mul p q >>= fun r => alu .mul r u) = (alu .mul q u >>= fun r => alu .mul p r) ∧
    alu .add p 0 = .ok p ∧ alu .mul p 1 = .ok p ∧ alu .mul p 0 = .ok 0 ∧
    (∀ r, alu .add p q = .ok r → r.toInt = (p.toInt + q.toInt).bmod 256) ∧
    (∀ r, alu .mul p q = .ok r → r.toInt = (p.toInt * q.toInt).bmod 256)

/-- 20_memory.md R32, with the read beside it: a write in range changes its one cell and nothing else; out of range it
raises `OutOfBounds(ADDR, addr)`, and so does a read. -/
def Obligations.MemWriteChangesOneCell : Prop :=
  ∀ (addr : Int) (v : Byte) (s : State),
    (0 ≤ addr → addr ≤ 255 → ∃ t, memWrite addr v s = .ok t ∧ memRead addr t = .ok v ∧
      (∀ b : Int, 0 ≤ b → b ≤ 255 → b ≠ addr → memRead b t = memRead b s) ∧
      SameRegs s t ∧ t.pc = s.pc ∧ t.sp = s.sp ∧ t.run = s.run ∧ t.out = s.out ∧ t.loadedLen = s.loadedLen) ∧
    (addr < 0 ∨ 255 < addr → memWrite addr v s = .error (.outOfBounds .addr addr) ∧
      memRead addr s = .error (.outOfBounds .addr addr))

/-- Memory's form is canonical (the model's own, log entry 14): two well-formed memories that read alike everywhere are
equal data. -/
def Obligations.MemoryFormIsCanonical : Prop :=
  ∀ m n : Memory, m.wf → n.wf → (∀ a, a ≤ 255 → m.read a = n.read a) → m = n

/-! ## Laws of the stack, of call and of return -/

/-- 43_stack.md section 4: `PUSH Rs`, then, after anything that leaves `sp` and the pushed cell as they are, `POP Rd`: the
register has the pushed value, `sp` is what it was before the `PUSH`, and the pair changed no cell but `sp - 1`. -/
def Obligations.PopUndoesPush : Prop :=
  ∀ (a b : Byte) (r d : Fin 8) (s t t' u : State), a.toNat = r.val → b.toNat = d.val → s.sp ≠ 0 →
    exec (.push a) s = .next t → t'.sp = t.sp → t'.mem.read t.sp.toNat = t.mem.read t.sp.toNat →
    exec (.pop b) t' = .next u →
    u.reg d = s.reg r ∧ u.sp = s.sp ∧ SameMemory t' u ∧ SameMemoryBut (s.sp.toNat - 1) s t ∧
    t.mem.read (s.sp.toNat - 1) = s.reg r

/-- 44_call_return.md section 3: a `CALL` at `c`, then, after anything that leaves `sp` and the pushed cell as they are, a
`RET`: `pc` is `c + 2` and `sp` is what it was before the `CALL`, and the cell still holds `c + 2`. -/
def Obligations.RetReturnsPastTheCall : Prop :=
  ∀ (a : Byte) (r : Fin 8) (s t t' u : State), a.toNat = r.val → s.sp ≠ 0 → s.pc.toNat ≤ 253 →
    exec (.call a) s = .next t → t'.sp = t.sp → t'.mem.read t.sp.toNat = t.mem.read t.sp.toNat →
    exec .ret t' = .next u →
    u.pc.toNat = s.pc.toNat + 2 ∧ u.sp = s.sp ∧ u.run = t'.run ∧
    (u.mem.read (s.sp.toNat - 1)).toNat = s.pc.toNat + 2

/-- 44_call_return.md section 3 (a): `PUSH Rs; RET` jumps to the address in `Rs` and leaves `sp` as it was. -/
def Obligations.PushThenRetIsAnIndirectJump : Prop :=
  ∀ (a : Byte) (r : Fin 8) (s : State), a.toNat = r.val → s.sp ≠ 0 → s.pc.toNat + 2 ≤ 255 →
    ∃ t u, exec (.push a) s = .next t ∧ exec .ret t = .next u ∧ u.pc = s.reg r ∧ u.sp = s.sp ∧ SameRegs s u ∧
      u.run = s.run

/-! ## Reset and launch -/

/-- The state after reset: the values 10_state.md section 10 states (`R7`, `pc`, `sp`, `run`), and those the model chose
from the spec's defaults: `R0` to `R6` 0 (D3, log entry 2), memory 0 (D4, log entry 3), nothing loaded (log entry 4). It is
what launching the empty program gives. -/
def Obligations.ResetHoldsItsValues : Prop :=
  (∀ r : Fin 8, r ≠ 7 → State.reset.reg r = 0) ∧ State.reset.reg 7 = 255 ∧ State.reset.pc = 0 ∧
    State.reset.sp = 255 ∧ State.reset.run = .running ∧ State.reset.out = [] ∧
    (∀ a, State.reset.mem.read a = 0) ∧ State.reset.loadedLen = 0 ∧ launch Config.default [] = .ok State.reset

/-- 10_state.md R22: the whole reset table, for EVERY `REG_RESET` and `MEM_FILL` and every program that fits. -/
def Obligations.LaunchGivesTheResetTable : Prop :=
  ∀ (c : Config) (program : List Byte), program.length ≤ 256 → ∃ s, launch c program = .ok s ∧
    (∀ r : Fin 8, r ≠ 7 → s.reg r = c.regReset) ∧ s.reg 7 = 255 ∧ s.pc = 0 ∧ s.sp = 255 ∧ s.run = .running ∧
    (∀ (k : Nat) (hk : k < program.length), s.mem.read k = program[k]) ∧
    (∀ k, program.length ≤ k → k ≤ 255 → s.mem.read k = c.memFill) ∧ s.out = [] ∧ s.loadedLen.val = program.length

/-- 10_state.md section 9 (D18): the loader's write past address 255 is `OutOfBounds(ADDR, 256)` and the run does not
start. -/
def Obligations.LoaderRefusesMoreThan256Bytes : Prop :=
  ∀ (c : Config) (program : List Byte), 256 < program.length →
    launch c program = .error (.outOfBounds .addr 256)

/-- The invariant holds at reset and at every launched state. -/
def Obligations.InvariantHoldsAtResetAndLaunch : Prop :=
  ∀ m : OpcodeMap, State.reset.Inv m ∧ ∀ (c : Config) (program : List Byte) (s : State),
    launch c program = .ok s → s.Inv m

/-- Every step keeps the invariant, from every state that has it: memory stays in canonical form with addresses 0 to 255,
and an error records only what 60_exceptions.md sections 1 and 2 give it. -/
def Obligations.EveryStepKeepsTheInvariant : Prop :=
  (∀ (m : OpcodeMap) (s t : State), s.Inv m → stepWith m s = .next t → t.Inv m) ∧
  (∀ s t : State, s.Inv OpcodeMap.default → step s = .next t → t.Inv OpcodeMap.default)

/-! ## Runs -/

/-- 40_cycle.md section 6: a run that has stopped stays as it is, so it has one outcome: it does not end both normally and
in an error, nor in two errors. -/
def Obligations.RunHasAtMostOneOutcome : Prop :=
  ∀ (m : OpcodeMap) (s : State),
    (∀ k j, (runFor m k s).run ≠ .running → runFor m (k + j) s = runFor m k s) ∧
    (EndsNormally m s → ∀ e, ¬ EndsWith m s e) ∧ (∀ e e', EndsWith m s e → EndsWith m s e' → e = e')

/-- 10_state.md section 7: along a run `OUT` only grows at its end, by at most one value a step, and what an error finds
emitted stays emitted (60_exceptions.md section 2). -/
def Obligations.OutOnlyGrowsAlongARun : Prop :=
  ∀ (m : OpcodeMap) (k : Nat) (s : State),
    ∃ emitted, (runFor m k s).out = s.out ++ emitted ∧ emitted.length ≤ k

/-- 43_stack.md section 4: cell 255 is never written by a stack instruction, so no run of any length changes it. -/
def Obligations.Cell255IsNeverWritten : Prop :=
  ∀ (m : OpcodeMap) (k : Nat) (s : State), (runFor m k s).mem.read 255 = s.mem.read 255

/-- 20_memory.md section 12: no program can observe `MEM_FILL`. Two launches of one program that differ in `MEM_FILL` alone
agree, after any number of steps, in every register, `pc`, `sp`, `run` and `OUT`, and each memory cell either agrees or
still holds its own launch's `MEM_FILL`. (It rests on the fetch limit D5 and the empty-stack error D9.) -/
def Obligations.NoProgramObservesMemFill : Prop :=
  ∀ (c c' : Config) (program : List Byte) (s s' : State) (k : Nat),
    c.regReset = c'.regReset → c.opcodes = c'.opcodes → launch c program = .ok s → launch c' program = .ok s' →
    SameRegs (runFor c.opcodes k s) (runFor c.opcodes k s') ∧
    (runFor c.opcodes k s).pc = (runFor c.opcodes k s').pc ∧ (runFor c.opcodes k s).sp = (runFor c.opcodes k s').sp ∧
    (runFor c.opcodes k s).run = (runFor c.opcodes k s').run ∧
    (runFor c.opcodes k s).out = (runFor c.opcodes k s').out ∧
    ∀ a, a ≤ 255 → (runFor c.opcodes k s).mem.read a = (runFor c.opcodes k s').mem.read a ∨
      ((runFor c.opcodes k s).mem.read a = c.memFill ∧ (runFor c.opcodes k s').mem.read a = c'.memFill)

/-- 20_memory.md section 12, its step (D5, D9): from any two states that agree where a fetch or a load can read, a step of
the one has a step of the other, and the two next states agree there again. -/
def Obligations.StepKeepsAgreementWhereRead : Prop :=
  ∀ (m : OpcodeMap) (s s' t : State), AgreeWhereRead s s' → stepWith m s = .next t →
    ∃ t', stepWith m s' = .next t' ∧ AgreeWhereRead t t'

/-- 20_memory.md section 12, its start: two launches of one program that differ in `MEM_FILL` at most agree where a fetch
or a load can read. -/
def Obligations.LaunchesAgreeWhereRead : Prop :=
  ∀ (c c' : Config) (program : List Byte) (s s' : State), c.regReset = c'.regReset →
    launch c program = .ok s → launch c' program = .ok s' → AgreeWhereRead s s'
end

