-- ==== Sys2Proof/Laws/Decode.lean ====
section
/-! SUPPORT. The decoder and the encoder: what a lookup says of a byte, the encoder's shape, and the decoder by cases. -/

namespace Sys2Proof

@[simp] theorem Opcode.mem_all (op : Opcode) : op ∈ Opcode.all := by cases op <;> simp [Opcode.all]

theorem OpcodeMap.byte_of_lookup {m : OpcodeMap} {ir : Byte} {op : Opcode} (h : m.lookup ir = some op) :
    m.byte op = ir := by simpa using List.find?_some h

/-- A byte is no opcode exactly if it differs from all nine. -/
theorem OpcodeMap.lookup_eq_none {m : OpcodeMap} {ir : Byte} : m.lookup ir = none ↔ ∀ op, m.byte op ≠ ir := by
  simp [OpcodeMap.lookup, List.find?_eq_none]

theorem OpcodeMap.Distinct.byte_inj {m : OpcodeMap} (h : m.Distinct) {o p : Opcode} (hb : m.byte o = m.byte p) :
    o = p := List.inj_on_of_nodup_map h (Opcode.mem_all o) (Opcode.mem_all p) hb

theorem OpcodeMap.Distinct.lookup_byte {m : OpcodeMap} (h : m.Distinct) (op : Opcode) :
    m.lookup (m.byte op) = some op := by
  cases hl : m.lookup (m.byte op) with
  | none => exact absurd rfl (OpcodeMap.lookup_eq_none.1 hl op)
  | some p => rw [h.byte_inj (OpcodeMap.byte_of_lookup hl)]

theorem OpcodeMap.default_distinct : OpcodeMap.default.Distinct := by decide

@[simp] theorem Opcode.opcode_assemble (op : Opcode) (a b : Byte) : (op.assemble a b).opcode = op := by cases op <;> rfl

theorem Opcode.nops_le (op : Opcode) : op.nops ≤ 2 := by cases op <;> decide

/-- Every byte sequence that decodes starts with an opcode and holds its operands. -/
theorem decode_ok_iff {m : OpcodeMap} {bytes : List Byte} {i : Instr} {rest : List Byte} :
    decode m bytes = .ok (i, rest) ↔ ∃ ir tail op, bytes = ir :: tail ∧ m.lookup ir = some op ∧
      op.nops ≤ tail.length ∧ i = op.assemble (tail.getD 0 0) (tail.getD 1 0) ∧ rest = tail.drop op.nops := by
  cases bytes with
  | nil => simp [decode]
  | cons ir tail =>
    cases h : m.lookup ir with
    | none => simp [decode, h]
    | some op =>
      by_cases hl : tail.length < op.nops
      · simp [decode, h, hl]
      · simp only [decode, h, hl, if_false, Except.ok.injEq, Prod.mk.injEq, List.cons.injEq]
        constructor
        · rintro ⟨rfl, rfl⟩
          exact ⟨ir, tail, op, ⟨rfl, rfl⟩, h, by omega, rfl, rfl⟩
        · rintro ⟨_, _, op', ⟨rfl, rfl⟩, h', -, rfl, rfl⟩
          rw [h] at h'
          cases h'
          exact ⟨rfl, rfl⟩

end Sys2Proof
end

