-- ==== Sys2Proof/Laws/Memory.lean ====
section
/-! SUPPORT. The laws of memory: what a write makes each address read as, and that every operation keeps the canonical
form. -/

namespace Sys2Proof.Machine

/-! ## Reading after writing (spec/20_memory.md R31, R32, R39) -/

theorem cellsRead_filter (cells : List Host.Cell) (a b : Nat) :
    cellsRead (cells.filter (fun c => c.1 != a)) b = if b = a then unlistedByte else cellsRead cells b := by
  induction cells with
  | nil => simp [cellsRead]
  | cons c rest ih =>
    obtain ⟨k, w⟩ := c
    by_cases hk : k = a <;> by_cases hb : b = k <;> simp_all [cellsRead]

theorem cellsRead_insert (cells : List Host.Cell) (a b : Nat) (v : Byte) :
    cellsRead (cellsInsert cells a v) b = if b = a then v else cellsRead cells b := by
  induction cells with
  | nil => simp [cellsInsert, cellsRead]
  | cons c rest ih =>
    obtain ⟨k, w⟩ := c
    rcases Nat.lt_trichotomy a k with h | h | h
    · simp [cellsInsert, cellsRead, h]
    · subst h
      by_cases hb : b = a <;> simp [cellsInsert, cellsRead, hb]
    · have h1 : ¬ a < k := by omega
      have h2 : a ≠ k := by omega
      by_cases hb : b = k
      · subst hb; simp [cellsInsert, cellsRead, h1, h2, h2.symm]
      · simp [cellsInsert, cellsRead, h1, h2, hb, ih]

theorem Memory.read_write (m : Memory) (a b : Nat) (v : Byte) :
    (m.write a v).read b = if b = a then v else m.read b := by
  unfold Memory.write Memory.read cellsWrite
  split
  · next h => rw [cellsRead_filter, h]
  · exact cellsRead_insert ..

@[simp] theorem Memory.read_write_same (m : Memory) (a : Nat) (v : Byte) : (m.write a v).read a = v := by
  simp [Memory.read_write]

@[simp] theorem Memory.read_write_other (m : Memory) {a b : Nat} (v : Byte) (h : b ≠ a) :
    (m.write a v).read b = m.read b := by
  simp [Memory.read_write, h]

/-! ## The canonical form -/

theorem Memory.wf_empty : Memory.wf ⟨[]⟩ := by simp [Memory.wf]

theorem mem_cellsInsert {cells : List Host.Cell} {a : Nat} {v : Byte} {c : Host.Cell}
    (h : c ∈ cellsInsert cells a v) : c = (a, v) ∨ c ∈ cells := by
  induction cells with
  | nil => simpa [cellsInsert] using h
  | cons d rest ih =>
    obtain ⟨k, w⟩ := d
    simp only [cellsInsert] at h
    split at h
    · simpa using h
    · split at h <;> simp only [List.mem_cons] at h ⊢ <;> tauto

theorem pairwise_cellsInsert {cells : List Host.Cell} (a : Nat) (v : Byte)
    (h : cells.Pairwise (fun p q => p.1 < q.1)) :
    (cellsInsert cells a v).Pairwise (fun p q => p.1 < q.1) := by
  induction cells with
  | nil => simp [cellsInsert]
  | cons d rest ih =>
    obtain ⟨k, w⟩ := d
    rw [List.pairwise_cons] at h
    simp only [cellsInsert]
    split
    · next hlt =>
      refine List.pairwise_cons.2 ⟨?_, List.pairwise_cons.2 h⟩
      intro c hc
      rcases List.mem_cons.1 hc with rfl | hc
      · exact hlt
      · exact Nat.lt_trans hlt (h.1 c hc)
    · split
      · next heq => subst heq; exact List.pairwise_cons.2 h
      · next hnlt hne =>
        refine List.pairwise_cons.2 ⟨?_, ih h.2⟩
        intro c hc
        rcases mem_cellsInsert hc with rfl | hc
        · show k < a
          omega
        · exact h.1 c hc

theorem Memory.wf_write {m : Memory} (h : m.wf) {a : Nat} (ha : a < 256) (v : Byte) : (m.write a v).wf := by
  unfold Memory.write Memory.wf cellsWrite
  split
  · refine ⟨h.1.filter _, fun c hc => h.2 c (List.mem_of_mem_filter hc)⟩
  · next hv =>
    refine ⟨pairwise_cellsInsert a v h.1, fun c hc => ?_⟩
    rcases mem_cellsInsert hc with rfl | hc
    · exact ⟨ha, hv⟩
    · exact h.2 c hc

/-! ## Memory filled with one byte (spec/10_state.md R22) -/

theorem cellsRead_fill (v : Byte) (l : List Nat) (a : Nat) :
    cellsRead (l.map (fun k => (k, v))) a = if a ∈ l then v else unlistedByte := by
  induction l with
  | nil => simp [cellsRead]
  | cons k rest ih => by_cases h : a = k <;> simp [cellsRead, ih, h]

theorem Memory.read_filled (v : Byte) {a : Nat} (ha : a < 256) : (Memory.filled v).read a = v := by
  unfold Memory.filled Memory.read
  split
  · next h => simp [cellsRead, h]
  · simp [cellsRead_fill, ha]

theorem Memory.wf_filled (v : Byte) : (Memory.filled v).wf := by
  unfold Memory.filled Memory.wf
  split
  · simp
  · next h =>
    refine ⟨?_, ?_⟩
    · rw [List.pairwise_map]
      exact List.pairwise_lt_range
    · intro c hc
      simp only [List.mem_map, List.mem_range] at hc
      obtain ⟨k, hk, rfl⟩ := hc
      exact ⟨hk, h⟩

end Sys2Proof.Machine
end

