-- ==== Sys2Proof/Laws/State.lean ====
section
/-! SUPPORT. What each update of State does to each field: one lemma per field per update, so that no later proof unfolds a
record update. -/

namespace Sys2Proof.Machine

variable (s : State) (r : Fin 8) (v t : Byte) (e : ExecError)

/-! ## setReg -/

@[simp] theorem State.reg_setReg_same : (s.setReg r v).reg r = v := by
  simp [State.reg, State.setReg]

theorem State.reg_setReg (q : Fin 8) : (s.setReg r v).reg q = if q = r then v else s.reg q := by
  have h : r.val = q.val ↔ q = r := by rw [Fin.ext_iff]; exact eq_comm
  simp only [State.reg, State.setReg, Fin.getElem_fin, Vector.getElem_set, h]

@[simp] theorem State.reg_setReg_other {q r : Fin 8} (h : q ≠ r) : (s.setReg r v).reg q = s.reg q := by
  simp [State.reg_setReg, h]

@[simp] theorem State.pc_setReg : (s.setReg r v).pc = s.pc := rfl
@[simp] theorem State.sp_setReg : (s.setReg r v).sp = s.sp := rfl
@[simp] theorem State.run_setReg : (s.setReg r v).run = s.run := rfl
@[simp] theorem State.mem_setReg : (s.setReg r v).mem = s.mem := rfl
@[simp] theorem State.out_setReg : (s.setReg r v).out = s.out := rfl
@[simp] theorem State.loadedLen_setReg : (s.setReg r v).loadedLen = s.loadedLen := rfl

/-! ## setPc -/

@[simp] theorem State.reg_setPc : (s.setPc t).reg r = s.reg r := rfl
@[simp] theorem State.pc_setPc : (s.setPc t).pc = t := rfl
@[simp] theorem State.sp_setPc : (s.setPc t).sp = s.sp := rfl
@[simp] theorem State.run_setPc : (s.setPc t).run = s.run := rfl
@[simp] theorem State.mem_setPc : (s.setPc t).mem = s.mem := rfl
@[simp] theorem State.out_setPc : (s.setPc t).out = s.out := rfl
@[simp] theorem State.loadedLen_setPc : (s.setPc t).loadedLen = s.loadedLen := rfl

/-! ## setSp -/

@[simp] theorem State.reg_setSp : (s.setSp t).reg r = s.reg r := rfl
@[simp] theorem State.pc_setSp : (s.setSp t).pc = s.pc := rfl
@[simp] theorem State.sp_setSp : (s.setSp t).sp = t := rfl
@[simp] theorem State.run_setSp : (s.setSp t).run = s.run := rfl
@[simp] theorem State.mem_setSp : (s.setSp t).mem = s.mem := rfl
@[simp] theorem State.out_setSp : (s.setSp t).out = s.out := rfl
@[simp] theorem State.loadedLen_setSp : (s.setSp t).loadedLen = s.loadedLen := rfl

/-! ## emit -/

@[simp] theorem State.reg_emit : (s.emit v).reg r = s.reg r := rfl
@[simp] theorem State.pc_emit : (s.emit v).pc = s.pc := rfl
@[simp] theorem State.sp_emit : (s.emit v).sp = s.sp := rfl
@[simp] theorem State.run_emit : (s.emit v).run = s.run := rfl
@[simp] theorem State.mem_emit : (s.emit v).mem = s.mem := rfl
@[simp] theorem State.out_emit : (s.emit v).out = s.out ++ [v] := rfl
@[simp] theorem State.loadedLen_emit : (s.emit v).loadedLen = s.loadedLen := rfl

/-! ## halt -/

@[simp] theorem State.reg_halt : s.halt.reg r = s.reg r := rfl
@[simp] theorem State.pc_halt : s.halt.pc = s.pc := rfl
@[simp] theorem State.sp_halt : s.halt.sp = s.sp := rfl
@[simp] theorem State.run_halt : s.halt.run = .halted := rfl
@[simp] theorem State.mem_halt : s.halt.mem = s.mem := rfl
@[simp] theorem State.out_halt : s.halt.out = s.out := rfl
@[simp] theorem State.loadedLen_halt : s.halt.loadedLen = s.loadedLen := rfl

/-! ## raise -/

@[simp] theorem State.reg_raise : (s.raise e).reg r = s.reg r := rfl
@[simp] theorem State.pc_raise : (s.raise e).pc = s.pc := rfl
@[simp] theorem State.sp_raise : (s.raise e).sp = s.sp := rfl
@[simp] theorem State.run_raise : (s.raise e).run = .faulted e := rfl
@[simp] theorem State.mem_raise : (s.raise e).mem = s.mem := rfl
@[simp] theorem State.out_raise : (s.raise e).out = s.out := rfl
@[simp] theorem State.loadedLen_raise : (s.raise e).loadedLen = s.loadedLen := rfl

/-! ## setByte -/

@[simp] theorem State.reg_setByte (a : Nat) : (s.setByte a v).reg r = s.reg r := rfl
@[simp] theorem State.pc_setByte (a : Nat) : (s.setByte a v).pc = s.pc := rfl
@[simp] theorem State.sp_setByte (a : Nat) : (s.setByte a v).sp = s.sp := rfl
@[simp] theorem State.run_setByte (a : Nat) : (s.setByte a v).run = s.run := rfl
@[simp] theorem State.mem_setByte (a : Nat) : (s.setByte a v).mem = s.mem.write a v := rfl
@[simp] theorem State.out_setByte (a : Nat) : (s.setByte a v).out = s.out := rfl
@[simp] theorem State.loadedLen_setByte (a : Nat) : (s.setByte a v).loadedLen = s.loadedLen := rfl

/-- Two states are equal when every register and every other field agree. -/
theorem State.ext_of_fields {s t : State} (hreg : ∀ r, s.reg r = t.reg r) (hpc : s.pc = t.pc) (hsp : s.sp = t.sp)
    (hrun : s.run = t.run) (hmem : s.mem = t.mem) (hout : s.out = t.out) (hlen : s.loadedLen = t.loadedLen) : s = t := by
  obtain ⟨x, pc, sp, run, mem, out, len⟩ := s
  obtain ⟨x', pc', sp', run', mem', out', len'⟩ := t
  have hx : x = x' := by
    ext i hi
    have := hreg ⟨i, hi⟩
    simp only [State.reg, Fin.getElem_fin] at this
    rw [this]
  simp_all

end Sys2Proof.Machine
end

