-- ==== Sys2Proof/Laws/Ops.lean ====
section
/-! SUPPORT. One specification per shared operation: everything it can answer. The meanings' lemmas cite these and never
unfold an operation. -/

namespace Sys2Proof.Machine

/-! ## The memory interface -/

theorem memRead_of_le (s : State) {a : Nat} (h : a ≤ 255) : memRead a s = .ok (s.mem.read a) := by
  have : (0 : Int) ≤ a ∧ (a : Int) ≤ 255 := by omega
  simp [memRead, this]

@[simp] theorem memRead_byte (s : State) (a : Byte) : memRead a.toNat s = .ok (s.mem.read a.toNat) :=
  memRead_of_le s (by omega)

@[simp] theorem memWrite_byte (s : State) (a v : Byte) : memWrite a.toNat v s = .ok (s.setByte a.toNat v) := by
  have : (0 : Int) ≤ a.toNat ∧ (a.toNat : Int) ≤ 255 := by omega
  simp [memWrite, this]

theorem memWrite_of_le (s : State) {a : Nat} (h : a ≤ 255) (v : Byte) : memWrite a v s = .ok (s.setByte a v) := by
  have : (0 : Int) ≤ a ∧ (a : Int) ≤ 255 := by omega
  simp [memWrite, this]

theorem memWrite_past (s : State) (v : Byte) : memWrite 256 v s = .error (.outOfBounds .addr 256) := by
  simp [memWrite]

/-! ## Register operands -/

theorem regidx_ok {k : Byte} {r : Fin 8} (h : k.toNat = r.val) : regidx k = .ok r := by
  have hk : k.toNat < 8 := by omega
  have : (⟨k.toNat, hk⟩ : Fin 8) = r := Fin.ext h
  simp [regidx, hk, this]

theorem regidx_bad {k : Byte} (h : 8 ≤ k.toNat) : regidx k = .error (.outOfBounds .reg k.toNat) := by
  have hk : ¬ k.toNat < 8 := by omega
  simp [regidx, hk]

/-- Everything `regidx` can answer. -/
theorem regidx_cases (k : Byte) :
    (∃ r : Fin 8, k.toNat = r.val ∧ regidx k = .ok r) ∨
      (8 ≤ k.toNat ∧ regidx k = .error (.outOfBounds .reg k.toNat)) := by
  by_cases h : k.toNat < 8
  · exact .inl ⟨⟨k.toNat, h⟩, rfl, regidx_ok rfl⟩
  · exact .inr ⟨by omega, regidx_bad (by omega)⟩

/-! ## The stack pointer -/

theorem storeSlot_ok {s : State} (h : s.sp ≠ 0) : storeSlot s = .ok (s.sp - 1) := if_neg h

theorem storeSlot_bad {s : State} (h : s.sp = 0) : storeSlot s = .error (.outOfBounds .addr (-1)) := by
  simp [storeSlot, h]

theorem afterLoad_ok {s : State} (h : s.sp ≠ 255) : afterLoad s = .ok (s.sp + 1) := if_neg h

theorem afterLoad_bad {s : State} (h : s.sp = 255) : afterLoad s = .error (.outOfBounds .addr 256) := by
  simp [afterLoad, h]

/-- Everything `storeSlot` can answer: one less, never 255, or the error. -/
theorem storeSlot_cases (s : State) :
    (∃ slot : Byte, slot.toNat + 1 = s.sp.toNat ∧ storeSlot s = .ok slot) ∨
      (s.sp = 0 ∧ storeSlot s = .error (.outOfBounds .addr (-1))) := by
  by_cases h : s.sp = 0
  · exact .inr ⟨h, storeSlot_bad h⟩
  · exact .inl ⟨s.sp - 1, by bv_omega, storeSlot_ok h⟩

/-- Everything `afterLoad` can answer: one more, or the error. -/
theorem afterLoad_cases (s : State) :
    (∃ sp' : Byte, sp'.toNat = s.sp.toNat + 1 ∧ afterLoad s = .ok sp') ∨
      (s.sp = 255 ∧ afterLoad s = .error (.outOfBounds .addr 256)) := by
  by_cases h : s.sp = 255
  · exact .inr ⟨h, afterLoad_bad h⟩
  · exact .inl ⟨s.sp + 1, by bv_omega, afterLoad_ok h⟩

/-! ## The return address -/

/-- Everything `returnAddress` can answer. -/
theorem returnAddress_cases (s : State) :
    (∃ ret : Byte, ret.toNat = s.pc.toNat + 2 ∧ returnAddress s = .ok ret) ∨
      (256 ≤ s.pc.toNat + 2 ∧ returnAddress s = .error (.outOfBounds .addr (s.pc.toNat + 2 : Nat))) := by
  by_cases h : s.pc.toNat + 2 ≤ 255
  · exact .inl ⟨BitVec.ofNat 8 (s.pc.toNat + 2), by simp; omega, by simp [returnAddress, h]⟩
  · exact .inr ⟨by omega, by simp only [returnAddress, h, if_false]⟩

/-! ## The ALU -/

@[simp] theorem alu_add (p q : Byte) : alu .add p q = .ok (p + q) := by
  simp only [alu, BitVec.ofNat_add, BitVec.ofNat_toNat, BitVec.setWidth_eq]

@[simp] theorem alu_mul (p q : Byte) : alu .mul p q = .ok (p * q) := by
  simp only [alu, BitVec.ofNat_mul, BitVec.ofNat_toNat, BitVec.setWidth_eq]

@[simp] theorem aluOp_add (ra rb : Fin 8) (s : State) : aluOp .add ra rb s = .ok (s.setReg ra (s.reg ra + s.reg rb)) := by
  simp [aluOp, bind, Except.bind, pure, Except.pure]

@[simp] theorem aluOp_mul (ra rb : Fin 8) (s : State) : aluOp .mul ra rb s = .ok (s.setReg ra (s.reg ra * s.reg rb)) := by
  simp [aluOp, bind, Except.bind, pure, Except.pure]

/-! ## advance -/

theorem advance_of_le {w : Nat} {s : State} (h : s.pc.toNat + w ≤ 255) :
    advance w s = s.setPc (BitVec.ofNat 8 (s.pc.toNat + w)) := by simp [advance, h]

theorem advance_overflow {w : Nat} {s : State} (h : 255 < s.pc.toNat + w) :
    advance w s = (s.setPc 0).raise (.unexpectedEnd 256) := by
  have : ¬ s.pc.toNat + w ≤ 255 := by omega
  simp [advance, this]

@[simp] theorem reg_advance (w : Nat) (s : State) (r : Fin 8) : (advance w s).reg r = s.reg r := by
  unfold advance; split <;> simp
@[simp] theorem sp_advance (w : Nat) (s : State) : (advance w s).sp = s.sp := by unfold advance; split <;> simp
@[simp] theorem mem_advance (w : Nat) (s : State) : (advance w s).mem = s.mem := by unfold advance; split <;> simp
@[simp] theorem out_advance (w : Nat) (s : State) : (advance w s).out = s.out := by unfold advance; split <;> simp
@[simp] theorem loadedLen_advance (w : Nat) (s : State) : (advance w s).loadedLen = s.loadedLen := by
  unfold advance; split <;> simp

/-- Everything `advance` does to `pc` and `run`. -/
theorem advance_pc_run (w : Nat) (s : State) :
    (s.pc.toNat + w ≤ 255 ∧ (advance w s).pc.toNat = s.pc.toNat + w ∧ (advance w s).run = s.run) ∨
      (255 < s.pc.toNat + w ∧ (advance w s).pc = 0 ∧ (advance w s).run = .faulted (.unexpectedEnd 256)) := by
  by_cases h : s.pc.toNat + w ≤ 255
  · refine .inl ⟨h, ?_, ?_⟩ <;> rw [advance_of_le h] <;> simp
    omega
  · refine .inr ⟨by omega, ?_, ?_⟩ <;> rw [advance_overflow (by omega)] <;> simp

/-! ## attempt -/

@[simp] theorem attempt_ok (s t : State) : attempt s (.ok t) = .next t := rfl
@[simp] theorem attempt_error (s : State) (e : ExecError) : attempt s (.error e) = .next (s.raise e) := rfl

/-- Everything `attempt` can answer: always a next state, the body's or the error taken. -/
theorem attempt_cases {s t : State} {body : Except ExecError State} (h : attempt s body = .next t) :
    body = .ok t ∨ ∃ e, body = .error e ∧ t = s.raise e := by
  cases body with
  | ok u => exact .inl (by simpa using h)
  | error e => exact .inr ⟨e, rfl, by simpa using h.symm⟩

end Sys2Proof.Machine
end

