-- ==== Sys2Proof/Laws/Exec.lean ====
section
/-! SUPPORT. One inversion lemma per meaning: if it answers `t`, then one of the listed cases holds, each naming the whole of
`t`. The theorems about `exec` cite these and never unfold a meaning. -/

namespace Sys2Proof.Machine

/-! ## What a meaning answers when its operands and `sp` are good -/

theorem execLdi_of_reg {a : Byte} {d : Fin 8} (h : regidx a = .ok d) (imm : Byte) (s : State) :
    execLdi a imm s = .next (advance 3 (s.setReg d imm)) := by
  simp [execLdi, h, bind, Except.bind, pure, Except.pure]

theorem execPrn_of_reg {a : Byte} {r : Fin 8} (h : regidx a = .ok r) (s : State) :
    execPrn a s = .next (advance 2 (s.emit (s.reg r))) := by
  simp [execPrn, h, bind, Except.bind, pure, Except.pure]

theorem execMul_of_regs {a b : Byte} {ra rb : Fin 8} (ha : regidx a = .ok ra) (hb : regidx b = .ok rb) (s : State) :
    execMul a b s = .next (advance 3 (s.setReg ra (s.reg ra * s.reg rb))) := by
  simp [execMul, ha, hb, bind, Except.bind, pure, Except.pure]

theorem execAdd_of_regs {a b : Byte} {ra rb : Fin 8} (ha : regidx a = .ok ra) (hb : regidx b = .ok rb) (s : State) :
    execAdd a b s = .next (advance 3 (s.setReg ra (s.reg ra + s.reg rb))) := by
  simp [execAdd, ha, hb, bind, Except.bind, pure, Except.pure]

theorem execPush_of_slot {a slot : Byte} {r : Fin 8} {s : State} (ha : regidx a = .ok r) (hs : storeSlot s = .ok slot) :
    execPush a s = .next (advance 2 ((s.setSp slot).setByte slot.toNat (s.reg r))) := by
  simp [execPush, ha, hs, bind, Except.bind, pure, Except.pure]

theorem execPop_of_load {a sp' : Byte} {d : Fin 8} {s : State} (ha : regidx a = .ok d) (hs : afterLoad s = .ok sp') :
    execPop a s = .next (advance 2 ((s.setReg d (s.mem.read s.sp.toNat)).setSp sp')) := by
  simp [execPop, ha, hs, bind, Except.bind, pure, Except.pure]

theorem execCall_of_slot {a slot ret : Byte} {r : Fin 8} {s : State} (ha : regidx a = .ok r)
    (hs : storeSlot s = .ok slot) (hr : returnAddress s = .ok ret) :
    execCall a s = .next (((s.setSp slot).setByte slot.toNat ret).setPc (s.reg r)) := by
  simp [execCall, ha, hs, hr, bind, Except.bind, pure, Except.pure]

theorem execRet_of_load {sp' : Byte} {s : State} (hs : afterLoad s = .ok sp') :
    execRet s = .next ((s.setPc (s.mem.read s.sp.toNat)).setSp sp') := by
  simp [execRet, hs, bind, Except.bind, pure, Except.pure]

/-! ## What it answers when a check raises, in the order of spec/40_cycle.md R75 -/

theorem execLdi_of_bad {a : Byte} {e : ExecError} (h : regidx a = .error e) (imm : Byte) (s : State) :
    execLdi a imm s = .next (s.raise e) := by simp [execLdi, h, bind, Except.bind]

theorem execPrn_of_bad {a : Byte} {e : ExecError} (h : regidx a = .error e) (s : State) :
    execPrn a s = .next (s.raise e) := by simp [execPrn, h, bind, Except.bind]

theorem execMul_of_bad {a b : Byte} {e : ExecError}
    (h : regidx a = .error e ∨ ∃ r, regidx a = .ok r ∧ regidx b = .error e) (s : State) :
    execMul a b s = .next (s.raise e) := by
  rcases h with h | ⟨r, h, h'⟩ <;> simp [execMul, *, bind, Except.bind]

theorem execAdd_of_bad {a b : Byte} {e : ExecError}
    (h : regidx a = .error e ∨ ∃ r, regidx a = .ok r ∧ regidx b = .error e) (s : State) :
    execAdd a b s = .next (s.raise e) := by
  rcases h with h | ⟨r, h, h'⟩ <;> simp [execAdd, *, bind, Except.bind]

theorem execPush_of_bad {a : Byte} {e : ExecError} {s : State}
    (h : regidx a = .error e ∨ ∃ r, regidx a = .ok r ∧ storeSlot s = .error e) :
    execPush a s = .next (s.raise e) := by
  rcases h with h | ⟨r, h, h'⟩ <;> simp [execPush, *, bind, Except.bind]

theorem execPop_of_bad {a : Byte} {e : ExecError} {s : State}
    (h : regidx a = .error e ∨ ∃ r, regidx a = .ok r ∧ afterLoad s = .error e) :
    execPop a s = .next (s.raise e) := by
  rcases h with h | ⟨r, h, h'⟩ <;> simp [execPop, *, bind, Except.bind]

theorem execCall_of_bad {a : Byte} {e : ExecError} {s : State}
    (h : regidx a = .error e ∨ (∃ r, regidx a = .ok r ∧ storeSlot s = .error e) ∨
      ∃ r slot, regidx a = .ok r ∧ storeSlot s = .ok slot ∧ returnAddress s = .error e) :
    execCall a s = .next (s.raise e) := by
  rcases h with h | ⟨r, h, h'⟩ | ⟨r, slot, h, h', h''⟩ <;> simp [execCall, *, bind, Except.bind]

theorem execRet_of_bad {e : ExecError} {s : State} (h : afterLoad s = .error e) :
    execRet s = .next (s.raise e) := by simp [execRet, h, bind, Except.bind]

/-! ## The error a meaning raises before it writes anything -/

/-- `Raises i s e`: the first failing check of instruction `i` in state `s` is `e` (spec/40_cycle.md R75 rows 4 to 7). -/
inductive Raises : Instr → State → ExecError → Prop where
  | firstReg {i : Instr} {s : State} {k : Byte} (h : i.regOperands.head? = some k) (hk : 8 ≤ k.toNat) :
      Raises i s (.outOfBounds .reg k.toNat)
  | secondReg {i : Instr} {s : State} {a k : Byte} (h : i.regOperands = [a, k]) (ha : a.toNat < 8) (hk : 8 ≤ k.toNat) :
      Raises i s (.outOfBounds .reg k.toNat)
  | pushFull {s : State} {a : Byte} (ha : a.toNat < 8) (hs : s.sp = 0) : Raises (.push a) s (.outOfBounds .addr (-1))
  | callFull {s : State} {a : Byte} (ha : a.toNat < 8) (hs : s.sp = 0) : Raises (.call a) s (.outOfBounds .addr (-1))
  | popEmpty {s : State} {a : Byte} (ha : a.toNat < 8) (hs : s.sp = 255) : Raises (.pop a) s (.outOfBounds .addr 256)
  | retEmpty {s : State} (hs : s.sp = 255) : Raises .ret s (.outOfBounds .addr 256)
  | noReturn {s : State} {a : Byte} (ha : a.toNat < 8) (hs : s.sp ≠ 0) (hp : 256 ≤ s.pc.toNat + 2) :
      Raises (.call a) s (.outOfBounds .addr (s.pc.toNat + 2 : Nat))

/-- `Completes i s t`: instruction `i`, all of whose checks pass in `s`, takes it to `t`. -/
inductive Completes : Instr → State → State → Prop where
  | ldi {s : State} {a imm : Byte} {d : Fin 8} (ha : a.toNat = d.val) :
      Completes (.ldi a imm) s (advance 3 (s.setReg d imm))
  | prn {s : State} {a : Byte} {r : Fin 8} (ha : a.toNat = r.val) :
      Completes (.prn a) s (advance 2 (s.emit (s.reg r)))
  | hlt {s : State} : Completes .hlt s (s.halt.setPc (BitVec.ofNat 8 (s.pc.toNat + 1)))
  | mul {s : State} {a b : Byte} {ra rb : Fin 8} (ha : a.toNat = ra.val) (hb : b.toNat = rb.val) :
      Completes (.mul a b) s (advance 3 (s.setReg ra (s.reg ra * s.reg rb)))
  | add {s : State} {a b : Byte} {ra rb : Fin 8} (ha : a.toNat = ra.val) (hb : b.toNat = rb.val) :
      Completes (.add a b) s (advance 3 (s.setReg ra (s.reg ra + s.reg rb)))
  | push {s : State} {a slot : Byte} {r : Fin 8} (ha : a.toNat = r.val) (hs : slot.toNat + 1 = s.sp.toNat) :
      Completes (.push a) s (advance 2 ((s.setSp slot).setByte slot.toNat (s.reg r)))
  | pop {s : State} {a sp' : Byte} {d : Fin 8} (ha : a.toNat = d.val) (hs : sp'.toNat = s.sp.toNat + 1) :
      Completes (.pop a) s (advance 2 ((s.setReg d (s.mem.read s.sp.toNat)).setSp sp'))
  | call {s : State} {a slot ret : Byte} {r : Fin 8} (ha : a.toNat = r.val) (hs : slot.toNat + 1 = s.sp.toNat)
      (hr : ret.toNat = s.pc.toNat + 2) :
      Completes (.call a) s (((s.setSp slot).setByte slot.toNat ret).setPc (s.reg r))
  | ret {s : State} {sp' : Byte} (hs : sp'.toNat = s.sp.toNat + 1) :
      Completes .ret s ((s.setPc (s.mem.read s.sp.toNat)).setSp sp')

/-- What `exec` can answer: the instruction completes, or its first failing check is taken. -/
inductive Answers (i : Instr) (s t : State) : Prop where
  | completes (h : Completes i s t)
  | raises (e : ExecError) (h : Raises i s e) (ht : t = s.raise e)

theorem execLdi_answers (a imm : Byte) (s : State) : ∃ t, execLdi a imm s = .next t ∧ Answers (.ldi a imm) s t := by
  rcases regidx_cases a with ⟨d, ha, h⟩ | ⟨ha, h⟩
  · exact ⟨_, execLdi_of_reg h imm s, .completes (.ldi ha)⟩
  · exact ⟨_, execLdi_of_bad h imm s, .raises _ (.firstReg rfl ha) rfl⟩

theorem execPrn_answers (a : Byte) (s : State) : ∃ t, execPrn a s = .next t ∧ Answers (.prn a) s t := by
  rcases regidx_cases a with ⟨r, ha, h⟩ | ⟨ha, h⟩
  · exact ⟨_, execPrn_of_reg h s, .completes (.prn ha)⟩
  · exact ⟨_, execPrn_of_bad h s, .raises _ (.firstReg rfl ha) rfl⟩

theorem execHlt_answers (s : State) : ∃ t, execHlt s = .next t ∧ Answers .hlt s t :=
  ⟨_, rfl, .completes .hlt⟩

theorem execMul_answers (a b : Byte) (s : State) : ∃ t, execMul a b s = .next t ∧ Answers (.mul a b) s t := by
  rcases regidx_cases a with ⟨ra, ha, h⟩ | ⟨ha, h⟩
  · rcases regidx_cases b with ⟨rb, hb, h'⟩ | ⟨hb, h'⟩
    · exact ⟨_, execMul_of_regs h h' s, .completes (.mul ha hb)⟩
    · exact ⟨_, execMul_of_bad (.inr ⟨ra, h, h'⟩) s, .raises _ (.secondReg rfl (by omega) hb) rfl⟩
  · exact ⟨_, execMul_of_bad (.inl h) s, .raises _ (.firstReg rfl ha) rfl⟩

theorem execAdd_answers (a b : Byte) (s : State) : ∃ t, execAdd a b s = .next t ∧ Answers (.add a b) s t := by
  rcases regidx_cases a with ⟨ra, ha, h⟩ | ⟨ha, h⟩
  · rcases regidx_cases b with ⟨rb, hb, h'⟩ | ⟨hb, h'⟩
    · exact ⟨_, execAdd_of_regs h h' s, .completes (.add ha hb)⟩
    · exact ⟨_, execAdd_of_bad (.inr ⟨ra, h, h'⟩) s, .raises _ (.secondReg rfl (by omega) hb) rfl⟩
  · exact ⟨_, execAdd_of_bad (.inl h) s, .raises _ (.firstReg rfl ha) rfl⟩

theorem execPush_answers (a : Byte) (s : State) : ∃ t, execPush a s = .next t ∧ Answers (.push a) s t := by
  rcases regidx_cases a with ⟨r, ha, h⟩ | ⟨ha, h⟩
  · rcases storeSlot_cases s with ⟨slot, hs, h'⟩ | ⟨hs, h'⟩
    · exact ⟨_, execPush_of_slot h h', .completes (.push ha hs)⟩
    · exact ⟨_, execPush_of_bad (.inr ⟨r, h, h'⟩), .raises _ (.pushFull (by omega) hs) rfl⟩
  · exact ⟨_, execPush_of_bad (.inl h), .raises _ (.firstReg rfl ha) rfl⟩

theorem execPop_answers (a : Byte) (s : State) : ∃ t, execPop a s = .next t ∧ Answers (.pop a) s t := by
  rcases regidx_cases a with ⟨d, ha, h⟩ | ⟨ha, h⟩
  · rcases afterLoad_cases s with ⟨sp', hs, h'⟩ | ⟨hs, h'⟩
    · exact ⟨_, execPop_of_load h h', .completes (.pop ha hs)⟩
    · exact ⟨_, execPop_of_bad (.inr ⟨d, h, h'⟩), .raises _ (.popEmpty (by omega) hs) rfl⟩
  · exact ⟨_, execPop_of_bad (.inl h), .raises _ (.firstReg rfl ha) rfl⟩

theorem execCall_answers (a : Byte) (s : State) : ∃ t, execCall a s = .next t ∧ Answers (.call a) s t := by
  rcases regidx_cases a with ⟨r, ha, h⟩ | ⟨ha, h⟩
  · rcases storeSlot_cases s with ⟨slot, hs, h'⟩ | ⟨hs, h'⟩
    · rcases returnAddress_cases s with ⟨ret, hr, h''⟩ | ⟨hr, h''⟩
      · exact ⟨_, execCall_of_slot h h' h'', .completes (.call ha hs hr)⟩
      · exact ⟨_, execCall_of_bad (.inr (.inr ⟨r, slot, h, h', h''⟩)), .raises _ (.noReturn (by omega) (by bv_omega) hr) rfl⟩
    · exact ⟨_, execCall_of_bad (.inr (.inl ⟨r, h, h'⟩)), .raises _ (.callFull (by omega) hs) rfl⟩
  · exact ⟨_, execCall_of_bad (.inl h), .raises _ (.firstReg rfl ha) rfl⟩

theorem execRet_answers (s : State) : ∃ t, execRet s = .next t ∧ Answers .ret s t := by
  rcases afterLoad_cases s with ⟨sp', hs, h⟩ | ⟨hs, h⟩
  · exact ⟨_, execRet_of_load h, .completes (.ret hs)⟩
  · exact ⟨_, execRet_of_bad h, .raises _ (.retEmpty hs) rfl⟩

/-- Every instruction answers a next state, and it is one of the listed ones. -/
theorem exec_answers (i : Instr) (s : State) : ∃ t, exec i s = .next t ∧ Answers i s t := by
  cases i with
  | ldi a imm => exact execLdi_answers a imm s
  | prn a => exact execPrn_answers a s
  | hlt => exact execHlt_answers s
  | mul a b => exact execMul_answers a b s
  | add a b => exact execAdd_answers a b s
  | push a => exact execPush_answers a s
  | pop a => exact execPop_answers a s
  | call a => exact execCall_answers a s
  | ret => exact execRet_answers s

/-- The inversion of `exec`. -/
theorem exec_inversion {i : Instr} {s t : State} (h : exec i s = .next t) : Answers i s t := by
  obtain ⟨u, hu, ha⟩ := exec_answers i s
  rw [hu] at h
  cases h
  exact ha

/-- An instruction whose checks pass answers what `Completes` says. -/
theorem exec_of_completes {i : Instr} {s t : State} (h : Completes i s t) : exec i s = .next t := by
  have slot_eq : ∀ {slot : Byte}, slot.toNat + 1 = s.sp.toNat → storeSlot s = .ok slot := by
    intro slot hs
    have hne : s.sp ≠ 0 := by bv_omega
    rw [storeSlot_ok hne, show s.sp - 1 = slot by bv_omega]
  have load_eq : ∀ {sp' : Byte}, sp'.toNat = s.sp.toNat + 1 → afterLoad s = .ok sp' := by
    intro sp' hs
    have hne : s.sp ≠ 255 := by bv_omega
    rw [afterLoad_ok hne, show s.sp + 1 = sp' by bv_omega]
  cases h with
  | ldi ha => exact execLdi_of_reg (regidx_ok ha) _ s
  | prn ha => exact execPrn_of_reg (regidx_ok ha) s
  | hlt => rfl
  | mul ha hb => exact execMul_of_regs (regidx_ok ha) (regidx_ok hb) s
  | add ha hb => exact execAdd_of_regs (regidx_ok ha) (regidx_ok hb) s
  | push ha hs => exact execPush_of_slot (regidx_ok ha) (slot_eq hs)
  | pop ha hs => exact execPop_of_load (regidx_ok ha) (load_eq hs)
  | call ha hs hr =>
    rcases returnAddress_cases s with ⟨ret', hr', h'⟩ | ⟨hr', -⟩
    · rw [BitVec.eq_of_toNat_eq (hr'.trans hr.symm)] at h'
      exact execCall_of_slot (regidx_ok ha) (slot_eq hs) h'
    · omega
  | ret hs => exact execRet_of_load (load_eq hs)

/-- An instruction whose first failing check is `e` answers the state with `e` taken. -/
theorem exec_of_raises {i : Instr} {s : State} {e : ExecError} (h : Raises i s e) : exec i s = .next (s.raise e) := by
  cases h with
  | @firstReg i _ k hk h8 =>
    have hbad := regidx_bad h8
    cases i <;> simp only [Instr.regOperands, List.head?_cons, List.head?_nil, Option.some.injEq, reduceCtorEq] at hk
    all_goals subst hk
    · exact execLdi_of_bad hbad _ s
    · exact execPrn_of_bad hbad s
    · exact execMul_of_bad (.inl hbad) s
    · exact execAdd_of_bad (.inl hbad) s
    · exact execPush_of_bad (.inl hbad)
    · exact execPop_of_bad (.inl hbad)
    · exact execCall_of_bad (.inl hbad)
  | @secondReg i _ a k hk ha h8 =>
    have hbad := regidx_bad h8
    cases i <;> simp only [Instr.regOperands, List.cons.injEq, reduceCtorEq, and_true, and_false] at hk
    all_goals obtain ⟨rfl, rfl⟩ := hk
    · exact execMul_of_bad (.inr ⟨⟨_, ha⟩, regidx_ok rfl, hbad⟩) s
    · exact execAdd_of_bad (.inr ⟨⟨_, ha⟩, regidx_ok rfl, hbad⟩) s
  | pushFull ha hs => exact execPush_of_bad (.inr ⟨⟨_, ha⟩, regidx_ok rfl, storeSlot_bad hs⟩)
  | callFull ha hs => exact execCall_of_bad (.inr (.inl ⟨⟨_, ha⟩, regidx_ok rfl, storeSlot_bad hs⟩))
  | popEmpty ha hs => exact execPop_of_bad (.inr ⟨⟨_, ha⟩, regidx_ok rfl, afterLoad_bad hs⟩)
  | retEmpty hs => exact execRet_of_bad (afterLoad_bad hs)
  | noReturn ha hs hp =>
    rcases returnAddress_cases s with ⟨ret, hr, -⟩ | ⟨-, h'⟩
    · omega
    · exact execCall_of_bad (.inr (.inr ⟨⟨_, ha⟩, _, regidx_ok rfl, storeSlot_ok hs, h'⟩))

end Sys2Proof.Machine
end

