-- ==== Sys2Proof/Laws/Loader.lean ====
section
/-! SUPPORT. What the loader's writes do (spec/70_reset_and_hazards.md R160), and what placing a word does. -/

namespace Sys2Proof.Machine

/-- Loading bytes that fit writes each at its address and changes nothing else. -/
theorem loadFrom_ok (bytes : List Byte) (k : Nat) (s : State) (h : k + bytes.length ≤ 256) :
    ∃ mem, loadFrom k bytes s = .ok { s with mem := mem } ∧ (s.mem.wf → mem.wf) ∧
      (∀ a, (a < k ∨ k + bytes.length ≤ a) → mem.read a = s.mem.read a) ∧
      ∀ (j : Nat) (hj : j < bytes.length), mem.read (k + j) = bytes[j] := by
  induction bytes generalizing k s with
  | nil => exact ⟨s.mem, rfl, id, fun _ _ => rfl, fun j hj => by simp at hj⟩
  | cons b rest ih =>
    simp only [List.length_cons] at h
    obtain ⟨mem, hl, hwf, hout, hin⟩ := ih (k + 1) (s.setByte k b) (by omega)
    refine ⟨mem, ?_, ?_, ?_, ?_⟩
    · have := memWrite_of_le s (a := k) (by omega) b
      simp only [loadFrom, this, bind, Except.bind, hl]
      rfl
    · exact fun hw => hwf (Memory.wf_write hw (by omega) b)
    · intro a ha
      simp only [List.length_cons] at ha
      rw [hout a (by omega)]
      exact Memory.read_write_other _ _ (by omega)
    · intro j hj
      cases j with
      | zero =>
        rw [Nat.add_zero, hout k (by omega)]
        simp
      | succ j =>
        have := hin j (by simpa using hj)
        rw [show k + (j + 1) = k + 1 + j by omega, this]
        simp

/-- Loading bytes that do not fit is the loader's own error (D18). -/
theorem loadFrom_past (bytes : List Byte) (k : Nat) (s : State) (hk : k ≤ 256) (h : 256 < k + bytes.length) :
    loadFrom k bytes s = .error (.outOfBounds .addr 256) := by
  induction bytes generalizing k s with
  | nil => simp at h; omega
  | cons b rest ih =>
    simp only [List.length_cons] at h
    by_cases hk' : k = 256
    · subst hk'
      have := memWrite_past s b
      simp [loadFrom, this, bind, Except.bind]
    · have := memWrite_of_le s (a := k) (by omega) b
      simp only [loadFrom, this, bind, Except.bind]
      exact ih (k + 1) _ (by omega) (by omega)

/-- The registers of the reset state (spec/10_state.md R22). -/
theorem reg_resetWith (c : Config) (r : Fin 8) : (resetWith c).reg r = if r = 7 then 255 else c.regReset := by
  fin_cases r <;> rfl

/-- A launch that succeeds fits memory, and gives the reset state with the program's bytes in it. -/
theorem launch_inversion {c : Config} {program : List Byte} {s : State} (h : launch c program = .ok s) :
    ∃ (hlen : program.length < 257) (mem : Memory), s = { resetWith c with mem := mem, loadedLen := ⟨program.length, hlen⟩ } ∧
      mem.wf ∧ (∀ a, program.length ≤ a → mem.read a = (Memory.filled c.memFill).read a) ∧
      ∀ (j : Nat) (hj : j < program.length), mem.read j = program[j] := by
  by_cases hfit : program.length ≤ 256
  · obtain ⟨mem, hl, hwf, hout, hin⟩ := loadFrom_ok program 0 (resetWith c) (by omega)
    have hlen : program.length < 257 := by omega
    simp only [launch, hl, bind, Except.bind, hlen, dite_true, pure, Except.pure, Except.ok.injEq] at h
    refine ⟨hlen, mem, h.symm, hwf (Memory.wf_filled _), ?_, ?_⟩
    · intro a ha
      exact hout a (by omega)
    · intro j hj
      have := hin j hj
      rwa [Nat.zero_add] at this
  · have := loadFrom_past program 0 (resetWith c) (by omega) (by omega)
    simp [launch, this, bind, Except.bind] at h

end Sys2Proof.Machine
end

