-- ==== Sys2Proof/Laws/PerInstr.lean ====
section
/-! SUPPORT. Two families of statements, one lemma per constructor of Instr: the encoding has the length that the operand
count gives, and it starts with the instruction's opcode byte (spec/30_encoding.md R50, R51, R54). -/

namespace Sys2Proof.Laws

/-- The encoding of `i` has `1 + nops` bytes, under every opcode assignment (R51). -/
def EncodeLength.Statement (i : Instr) : Prop := ∀ m : OpcodeMap, (encode m i).length = i.length

theorem EncodeLength.ldi (a imm : Byte) : EncodeLength.Statement (.ldi a imm) := fun _ => rfl
theorem EncodeLength.prn (a : Byte) : EncodeLength.Statement (.prn a) := fun _ => rfl
theorem EncodeLength.hlt : EncodeLength.Statement .hlt := fun _ => rfl
theorem EncodeLength.mul (a b : Byte) : EncodeLength.Statement (.mul a b) := fun _ => rfl
theorem EncodeLength.add (a b : Byte) : EncodeLength.Statement (.add a b) := fun _ => rfl
theorem EncodeLength.push (a : Byte) : EncodeLength.Statement (.push a) := fun _ => rfl
theorem EncodeLength.pop (a : Byte) : EncodeLength.Statement (.pop a) := fun _ => rfl
theorem EncodeLength.call (a : Byte) : EncodeLength.Statement (.call a) := fun _ => rfl
theorem EncodeLength.ret : EncodeLength.Statement .ret := fun _ => rfl

/-- The encoding of `i` is its opcode byte and then its operand bytes, and `assemble` puts those together again (R50). -/
def EncodeShape.Statement (i : Instr) : Prop :=
  ∀ (m : OpcodeMap) (rest : List Byte), ∃ operands : List Byte,
    encode m i = m.byte i.opcode :: operands ∧ operands.length = i.opcode.nops ∧
      i.opcode.assemble ((operands ++ rest).getD 0 0) ((operands ++ rest).getD 1 0) = i

theorem EncodeShape.ldi (a imm : Byte) : EncodeShape.Statement (.ldi a imm) := fun _ _ => ⟨[a, imm], rfl, rfl, rfl⟩
theorem EncodeShape.prn (a : Byte) : EncodeShape.Statement (.prn a) := fun _ _ => ⟨[a], rfl, rfl, rfl⟩
theorem EncodeShape.hlt : EncodeShape.Statement .hlt := fun _ _ => ⟨[], rfl, rfl, rfl⟩
theorem EncodeShape.mul (a b : Byte) : EncodeShape.Statement (.mul a b) := fun _ _ => ⟨[a, b], rfl, rfl, rfl⟩
theorem EncodeShape.add (a b : Byte) : EncodeShape.Statement (.add a b) := fun _ _ => ⟨[a, b], rfl, rfl, rfl⟩
theorem EncodeShape.push (a : Byte) : EncodeShape.Statement (.push a) := fun _ _ => ⟨[a], rfl, rfl, rfl⟩
theorem EncodeShape.pop (a : Byte) : EncodeShape.Statement (.pop a) := fun _ _ => ⟨[a], rfl, rfl, rfl⟩
theorem EncodeShape.call (a : Byte) : EncodeShape.Statement (.call a) := fun _ _ => ⟨[a], rfl, rfl, rfl⟩
theorem EncodeShape.ret : EncodeShape.Statement .ret := fun _ _ => ⟨[], rfl, rfl, rfl⟩

end Sys2Proof.Laws
end

