-- ==== Sys2Proof/Laws/Step.lean ====
section
/-! SUPPORT. What fetch can answer and what a step can do, each said once; and runs. -/

namespace Sys2Proof.Machine

/-! ## Fetch -/

/-- Everything `fetch` can answer, in the order of spec/40_cycle.md R75 rows 1 to 3. -/
theorem fetch_cases (m : OpcodeMap) (s : State) :
    (s.loadedLen.val ≤ s.pc.toNat ∧ fetch m s = .error (.unexpectedEnd s.pc.toNat)) ∨
    (s.pc.toNat < s.loadedLen.val ∧ m.lookup (s.mem.read s.pc.toNat) = none ∧
      fetch m s = .error (.illegalInstruction s.pc (s.mem.read s.pc.toNat))) ∨
    (∃ op, s.pc.toNat < s.loadedLen.val ∧ m.lookup (s.mem.read s.pc.toNat) = some op ∧
      s.loadedLen.val ≤ s.pc.toNat + op.nops ∧ fetch m s = .error (.unexpectedEnd s.pc.toNat)) ∨
    (∃ op, m.lookup (s.mem.read s.pc.toNat) = some op ∧ s.pc.toNat + op.nops < s.loadedLen.val ∧
      fetch m s = .ok (op.assemble (s.mem.read (s.pc.toNat + 1)) (s.mem.read (s.pc.toNat + 2)))) := by
  by_cases h : s.loadedLen.val ≤ s.pc.toNat
  · exact .inl ⟨h, by simp [fetch, h]⟩
  · cases hl : m.lookup (s.mem.read s.pc.toNat) with
    | none =>
      refine .inr (.inl ⟨by omega, rfl, ?_⟩)
      simp [fetch, h, hl, bind, Except.bind]
    | some op =>
      by_cases hc : s.loadedLen.val ≤ s.pc.toNat + op.nops
      · refine .inr (.inr (.inl ⟨op, by omega, rfl, hc, ?_⟩))
        simp [fetch, h, hl, hc, bind, Except.bind]
      · refine .inr (.inr (.inr ⟨op, rfl, by omega, ?_⟩))
        have hlen := s.loadedLen.isLt
        have h1 : 1 ≤ op.nops → memRead (s.pc.toNat + 1 : Nat) s = .ok (s.mem.read (s.pc.toNat + 1)) :=
          fun hn => memRead_of_le s (by omega)
        have h2 : op.nops = 2 → memRead (s.pc.toNat + 2 : Nat) s = .ok (s.mem.read (s.pc.toNat + 2)) :=
          fun hn => memRead_of_le s (by omega)
        simp only [fetch, h, if_false, memRead_byte, bind, Except.bind, hl, hc]
        cases op <;>
          simp_all [Opcode.nops, pure, Except.pure, Opcode.assemble]

/-- A fetched instruction lies whole in loaded memory. -/
theorem pc_add_length_le_of_fetch {m : OpcodeMap} {s : State} {i : Instr} (h : fetch m s = .ok i) :
    s.pc.toNat + i.length ≤ s.loadedLen.val := by
  rcases fetch_cases m s with ⟨-, h'⟩ | ⟨-, -, h'⟩ | ⟨_, -, -, -, h'⟩ | ⟨op, -, hc, h'⟩ <;> rw [h'] at h <;> cases h
  simp only [Instr.length, Opcode.opcode_assemble]
  omega

theorem pc_add_length_le_256_of_fetch {m : OpcodeMap} {s : State} {i : Instr} (h : fetch m s = .ok i) :
    s.pc.toNat + i.length ≤ 256 := by
  have := pc_add_length_le_of_fetch h
  omega

/-! ## Step -/

/-- Everything a step of a running engine can do: the fetch raised, or the fetched instruction gave one of its answers. -/
theorem stepWith_cases {m : OpcodeMap} {s t : State} (h : stepWith m s = .next t) :
    s.run = .running ∧
      ((∃ e, fetch m s = .error e ∧ t = s.raise e) ∨ ∃ i, fetch m s = .ok i ∧ Answers i s t) := by
  unfold stepWith at h
  cases hr : s.run <;> rw [hr] at h
  · refine ⟨rfl, ?_⟩
    cases hf : fetch m s with
    | ok i => simp only [hf] at h; exact .inr ⟨i, rfl, exec_inversion h⟩
    | error e => simp only [hf] at h; cases h; exact .inl ⟨e, rfl, rfl⟩
  · cases h
  · cases h

theorem stepWith_of_fetch {m : OpcodeMap} {s : State} {i : Instr} (hr : s.run = .running) (hf : fetch m s = .ok i) :
    stepWith m s = exec i s := by simp [stepWith, hr, hf]

theorem stepWith_of_fetch_error {m : OpcodeMap} {s : State} {e : ExecError} (hr : s.run = .running)
    (hf : fetch m s = .error e) : stepWith m s = .next (s.raise e) := by simp [stepWith, hr, hf]

/-! ## Runs -/

theorem runFor_succ_of_next {m : OpcodeMap} {s t : State} (k : Nat) (h : stepWith m s = .next t) :
    runFor m (k + 1) s = runFor m k t := by simp [runFor, h]

theorem runFor_of_stopped {m : OpcodeMap} {s : State} (h : s.run ≠ .running) (k : Nat) : runFor m k s = s := by
  cases k with
  | zero => rfl
  | succ k => cases hr : s.run <;> simp_all [runFor, stepWith]

theorem runFor_add (m : OpcodeMap) (k j : Nat) (s : State) : runFor m (k + j) s = runFor m j (runFor m k s) := by
  induction k generalizing s with
  | zero => simp [runFor]
  | succ k ih =>
    by_cases hr : s.run = .running
    · have hnext : ∃ t, stepWith m s = .next t := by
        cases hf : fetch m s with
        | ok i => obtain ⟨t, ht, -⟩ := exec_answers i s; exact ⟨t, by rw [stepWith_of_fetch hr hf, ht]⟩
        | error e => exact ⟨_, stepWith_of_fetch_error hr hf⟩
      obtain ⟨t, ht⟩ := hnext
      rw [Nat.succ_add, runFor_succ_of_next _ ht, runFor_succ_of_next _ ht, ih]
    · simp only [runFor_of_stopped hr]

/-- A property that every step keeps holds all along a run. -/
theorem runFor_induction {m : OpcodeMap} {P : State → Prop}
    (hstep : ∀ s t, P s → stepWith m s = .next t → P t) (k : Nat) {s : State} (hs : P s) : P (runFor m k s) := by
  induction k generalizing s with
  | zero => exact hs
  | succ k ih =>
    simp only [runFor]
    split
    · next t h => exact ih (hstep s t hs h)
    · exact hs
    · exact hs

end Sys2Proof.Machine
end

