-- ==== Sys2Proof/Machine/Output.lean ====
section
/-! DEFINITION. What the host makes of the output sequence (spec/10_state.md R19, decision D17). The machine itself only
hands over the 8-bit values; no rule of a step depends on this file. -/

namespace Sys2Proof.Machine

/-- The decimal numeral of an emitted value: no sign, no leading zeros, `0` for zero (R19). -/
def printedNumeral (v : Byte) : List Char := Nat.toDigits 10 v.toNat

/-- The text the host prints for `OUT`: one numeral a line, each followed by the line break, whose characters the spec
leaves to the host (D17; log entry 12). -/
def printedText (lineBreak : List Char) (out : List Byte) : List Char :=
  out.flatMap (fun v => printedNumeral v ++ lineBreak)

end Sys2Proof.Machine
end

