-- ==== Sys2Proof/Tests/Slice0.lean ====
section
/-! SUPPORT. The model's own tests: ill-formed instructions refused, decoding of words written out from spec/30_encoding.md
and the bit patterns of spec/opcode_table.json, at most two vectors of spec/95_test_vectors.md per instruction (each test
names its vector), and a witness for the hypotheses of each obligation. -/

namespace Sys2Proof.Tests

open Sys2Proof.Machine

/-! ## Helpers -/

/-- A running state over the reset state, with these bytes from `pc` up and `LOADED_LEN = 256`. -/
def at_ (pc sp : Byte) (bytes : List Byte) : State :=
  { State.reset with pc := pc, sp := sp, mem := placeBytes pc.toNat bytes ⟨[]⟩, loadedLen := 256 }

/-- The next state of an outcome; the reset state where there is none. -/
def next (o : Host.Outcome State Fault Refusal) : State :=
  match o with
  | .next t => t
  | .fault _ => State.reset
  | .refused _ => State.reset

/-- A launched program; the reset state where the launch fails. -/
def launched (program : List Byte) : State :=
  match launch Config.default program with
  | .ok s => s
  | .error _ => State.reset

/-! ## WellFormed refuses an ill-formed instruction, one for each check -/

theorem test_wf_ldi_refuses : Instr.wellFormed (.ldi 8 0) = false := by decide
theorem test_wf_ldi_any_immediate : Instr.wellFormed (.ldi 7 0xFF) = true := by decide
theorem test_wf_prn_refuses : Instr.wellFormed (.prn 9) = false := by decide
theorem test_wf_mul_refuses_first : Instr.wellFormed (.mul 8 0) = false := by decide
theorem test_wf_mul_refuses_second : Instr.wellFormed (.mul 0 8) = false := by decide
theorem test_wf_add_refuses_first : Instr.wellFormed (.add 0xFF 0) = false := by decide
theorem test_wf_add_refuses_second : Instr.wellFormed (.add 0 0x80) = false := by decide
theorem test_wf_push_refuses : Instr.wellFormed (.push 8) = false := by decide
theorem test_wf_pop_refuses : Instr.wellFormed (.pop 10) = false := by decide
theorem test_wf_call_refuses : Instr.wellFormed (.call 8) = false := by decide

/-! ## Decoding, the words written bit by bit from the opcode table's `encoding` strings -/

theorem test_decode_ldi : decode OpcodeMap.default [0b10000010, 0b00000000, 0b00001000] = .ok (.ldi 0 8, []) := by decide
theorem test_decode_prn : decode OpcodeMap.default [0b01000111, 0b00000000] = .ok (.prn 0, []) := by decide
theorem test_decode_hlt : decode OpcodeMap.default [0b00000001, 0b11111111] = .ok (.hlt, [0b11111111]) := by decide
theorem test_decode_mul : decode OpcodeMap.default [0b10100010, 0b00000010, 0b00000101] = .ok (.mul 2 5, []) := by decide
theorem test_decode_add : decode OpcodeMap.default [0b10100000, 0b00000010, 0b00000101] = .ok (.add 2 5, []) := by decide
theorem test_decode_push : decode OpcodeMap.default [0b01000101, 0b00000011] = .ok (.push 3, []) := by decide
theorem test_decode_pop : decode OpcodeMap.default [0b01000110, 0b00000011] = .ok (.pop 3, []) := by decide
theorem test_decode_call : decode OpcodeMap.default [0b01010000, 0b00000001] = .ok (.call 1, []) := by decide
theorem test_decode_ret : decode OpcodeMap.default [0b00010001] = .ok (.ret, []) := by decide
theorem test_decode_empty : decode OpcodeMap.default [] = .error .endOfBytes := by decide
/-- V-F4, V-F8: an instruction without its last operand. -/
theorem test_decode_cut_off : decode OpcodeMap.default [0x82, 0x09] = .error (.cutOff .ldi) := by decide
/-- 2.1: bytes one bit away from LDI and HLT, and others, are illegal; so is 0. -/
theorem test_decode_illegal : ∀ b ∈ ([0x00, 0x10, 0x44, 0x48, 0x51, 0xA1, 0xA3, 0xFF, 0x02, 0x80, 0x83, 0x86, 0x8A, 0x92,
    0xC2, 0x03, 0x05, 0x09, 0x21, 0x41, 0x81] : List Byte), OpcodeMap.default.lookup b = none := by decide
/-- The table numbers bit 0 as the lowest bit of the first byte. -/
theorem test_decodeTableWord : decodeTableWord 24 0x080082 = some (.ldi 0 8) := by decide
/-- Bits from `nbits` up are 0. -/
theorem test_decodeTableWord_short : decodeTableWord 8 0x0801A0 = some (.add 0 0) := by decide

/-! ## Instructions -/

/-- V-L3: no sign extension. -/
theorem test_ldi : (next (exec (.ldi 3 0xFF) (at_ 0 255 []))).reg 3 = 255 := by decide
/-- V-L4: the register operand 8 faults and writes nothing. -/
theorem test_ldi_bad : (next (exec (.ldi 8 5) (at_ 0 255 []))).run = .faulted (.outOfBounds .reg 8) := by decide
/-- V-P2: R7 holds 255 after reset. -/
theorem test_prn : (next (exec (.prn 7) (at_ 0 255 []))).out = [255] := by decide
/-- V-P1 after the LDI of S1. -/
theorem test_prn_pc : (next (exec (.prn 0) (at_ 3 255 []))).pc = 5 := by decide
/-- V-H1. -/
theorem test_hlt : (next (exec .hlt (at_ 5 255 []))).run = .halted ∧ (next (exec .hlt (at_ 5 255 []))).pc = 6 := by decide
/-- V-H2: at address 255 the pc is 0 and there is no fault. -/
theorem test_hlt_top : (next (exec .hlt (at_ 255 255 []))).run = .halted ∧ (next (exec .hlt (at_ 255 255 []))).pc = 0 := by decide
/-- V-A4: the destination is the first operand. -/
theorem test_mul : (next (exec (.mul 1 0) (((at_ 0 255 []).setReg 0 8).setReg 1 9))).x = #v[8, 72, 0, 0, 0, 0, 0, 255] := by decide
/-- V-A2: the same register, squared modulo 256. -/
theorem test_mul_square : (next (exec (.mul 0 0) ((at_ 0 255 []).setReg 0 20))).reg 0 = 144 := by decide
/-- V-A8: R7 doubled, and it is not the stack pointer. -/
theorem test_add : (next (exec (.add 7 7) (at_ 0 255 []))).reg 7 = 254 ∧ (next (exec (.add 7 7) (at_ 0 255 []))).sp = 255 := by decide
/-- V-A10: the first operand is checked first. -/
theorem test_add_bad : (next (exec (.add 9 8) (at_ 0 255 []))).run = .faulted (.outOfBounds .reg 9) := by decide
/-- V-S4: the push replaces its own opcode byte and still completes. -/
theorem test_push : (next (step ((at_ 0 1 [0x45, 0x00]).setReg 0 9))).mem.read 0 = 9 ∧
    (next (step ((at_ 0 1 [0x45, 0x00]).setReg 0 9))).pc = 2 := by decide
/-- V-S6: the register check precedes the stack check. -/
theorem test_push_bad : (next (step (at_ 0 0 [0x45, 0x08]))).run = .faulted (.outOfBounds .reg 8) := by decide
/-- V-S7, with the value the cell holds still there. -/
theorem test_pop : (next (exec (.pop 0) ((at_ 0 253 []).setByte 253 2))).reg 0 = 2 ∧
    (next (exec (.pop 0) ((at_ 0 253 []).setByte 253 2))).mem.read 253 = 2 := by decide
/-- V-S9: the empty stack. -/
theorem test_pop_empty : (next (exec (.pop 0) (at_ 0 255 []))).run = .faulted (.outOfBounds .addr 256) := by decide
/-- V-C3: the largest return address. -/
theorem test_call : (next (exec (.call 0) ((at_ 253 200 []).setReg 0 7))).mem.read 199 = 255 ∧
    (next (exec (.call 0) ((at_ 253 200 []).setReg 0 7))).pc = 7 := by decide
/-- V-C4: no return address from 254. -/
theorem test_call_top : (next (step (at_ 254 255 [0x50, 0x00]))).run = .faulted (.outOfBounds .addr 256) ∧
    (next (step (at_ 254 255 [0x50, 0x00]))).sp = 255 := by decide
/-- V-R3: a RET at address 255 executes normally. -/
theorem test_ret : (next (step ((at_ 255 100 [0x11]).setByte 100 4))).pc = 4 ∧
    (next (step ((at_ 255 100 [0x11]).setByte 100 4))).sp = 101 := by decide
/-- V-R2. -/
theorem test_ret_empty : (next (exec .ret (at_ 0 255 []))).run = .faulted (.outOfBounds .addr 256) := by decide

/-! ## Fetch, faults, output -/

/-- V-F1: the empty program. -/
theorem test_empty_program : (next (step State.reset)).run = .faulted (.unexpectedEnd 0) := by decide
/-- V-F6: the fetch limit comes before the opcode. -/
theorem test_fetch_limit_first : fetch OpcodeMap.default { at_ 9 255 [0xFF] with loadedLen := 9 } = .error (.unexpectedEnd 9) := by decide
/-- V-F7. -/
theorem test_fetch_illegal : fetch OpcodeMap.default { at_ 4 255 [0xFF] with loadedLen := 5 } = .error (.illegalInstruction 4 0xFF) := by decide
/-- V-F8: a cut-off instruction comes before its bad register operand. -/
theorem test_fetch_cut_off : fetch OpcodeMap.default { at_ 4 255 [0x82, 0x09] with loadedLen := 6 } = .error (.unexpectedEnd 4) := by decide
/-- V-F11, its last step: the register is written and the run ends. -/
theorem test_advance_overflow : (next (step (at_ 253 255 [0x82, 0x01, 0x09]))).reg 1 = 9 ∧
    (next (step (at_ 253 255 [0x82, 0x01, 0x09]))).run = .faulted (.unexpectedEnd 256) ∧
    (next (step (at_ 253 255 [0x82, 0x01, 0x09]))).pc = 0 := by decide
/-- V-A11. -/
theorem test_alu_other : alu .other 1 2 = .error (.unsupportedOperation .other) := by decide
/-- R131's numbers. -/
theorem test_error_codes : [ExecError.illegalInstruction 0 0, .unsupportedOperation .other, .outOfBounds .reg 8,
    .unexpectedEnd 256].map ExecError.code = [1, 2, 3, 4] := by decide
/-- R19: decimal, no leading zeros, `0` for zero, one line each. -/
theorem test_printed_text : printedText ['\n'] [8, 0, 255] = ['8', '\n', '0', '\n', '2', '5', '5', '\n'] := by decide
/-- V-X1: the loaded bytes and the fill. -/
theorem test_launch : (launched [0x82, 0x00, 0x08, 0x47, 0x00, 0x01]).mem.read 2 = 8 ∧
    (launched [0x82, 0x00, 0x08, 0x47, 0x00, 0x01]).mem.read 6 = 0 ∧
    (launched [0x82, 0x00, 0x08, 0x47, 0x00, 0x01]).loadedLen = 6 := by decide

/-! ## Witnesses: concrete data that meet each obligation's hypotheses, clause by clause, at a boundary of their range -/

theorem witness_DecodeEncodeRoundTrip : OpcodeMap.default.Distinct := by decide

theorem witness_IllegalOpcodesNumber247 : OpcodeMap.Distinct { OpcodeMap.default with mul := 0xA3 } := by decide

theorem witness_DecodedBytesAreTheEncoding :
    decode OpcodeMap.default [0xA0, 0x09, 0xFF, 0x01] = .ok (.add 9 0xFF, [0x01]) := by decide

/-- The instruction's last byte is the last loaded one, at address 255. -/
theorem witness_StepRunsTheDecodedInstruction : (at_ 253 255 [0x82, 0x00, 0x08]).run = .running ∧
    decode OpcodeMap.default (at_ 253 255 [0x82, 0x00, 0x08]).loadedBytes = .ok (.ldi 0 8, []) := by decide

theorem witness_UnknownOpcodeRaisesIllegalInstruction : (at_ 255 255 [0xFF]).run = .running ∧
    (at_ 255 255 [0xFF]).pc.toNat < (at_ 255 255 [0xFF]).loadedLen.val ∧
    OpcodeMap.default.lookup ((at_ 255 255 [0xFF]).mem.read 255) = none := by decide

theorem witness_FetchPastLoadedMemoryRaisesUnexpectedEnd :
    ({ at_ 9 255 [0xFF] with loadedLen := 9 } : State).run = .running ∧
    ({ at_ 9 255 [0xFF] with loadedLen := 9 } : State).loadedLen.val ≤ 9 ∧
    4 < ({ at_ 4 255 [0x82, 0x09] with loadedLen := 6 } : State).loadedLen.val ∧
    OpcodeMap.default.lookup (({ at_ 4 255 [0x82, 0x09] with loadedLen := 6 } : State).mem.read 4) = some .ldi ∧
    ({ at_ 4 255 [0x82, 0x09] with loadedLen := 6 } : State).loadedLen.val ≤ 4 + Opcode.ldi.nops := by decide

/-- Two states that differ in a register, `sp` and a byte outside the instruction. -/
theorem witness_FetchDependsOnlyOnTheBytesAtPc : ∀ k, k ≤ 2 →
    (at_ 253 255 [0x82, 0x00, 0x08]).mem.read (253 + k) =
      (((at_ 253 9 [0x82, 0x00, 0x08]).setReg 0 1).setByte 252 7).mem.read (253 + k) := by decide

theorem witness_RunningStateHasExactlyOneNextState : State.reset.run = .running := by decide

theorem witness_StoppedEngineHasNoStep : State.reset.halt.run = .halted ∧
    (State.reset.raise (.unexpectedEnd 256)).run = .faulted (.unexpectedEnd 256) := by decide

theorem witness_PlacedWordIsTheNextInstruction : (at_ 253 255 []).pc.toNat ≤ 253 ∧
    decodeTableWord 24 0xFF07A2 = some (.mul 7 0xFF) := by decide

/-- Register operands at 7 and 8; `pc + 3` at 255 and 256. -/
theorem witness_LdiLoadsTheImmediate : (7 : Byte).toNat = (7 : Fin 8).val ∧ 8 ≤ (8 : Byte).toNat ∧
    (at_ 252 255 []).pc.toNat + 3 = 255 ∧ (at_ 253 255 []).pc.toNat + 3 = 256 := by decide

/-- `pc + 2` at 255 and 256. -/
theorem witness_PrnEmitsTheRegister : (7 : Byte).toNat = (7 : Fin 8).val ∧ 8 ≤ (8 : Byte).toNat ∧
    (at_ 253 255 []).pc.toNat + 2 = 255 ∧ (at_ 254 255 []).pc.toNat + 2 = 256 := by decide

theorem witness_MulWritesTheProductModulo256 : (7 : Byte).toNat = (7 : Fin 8).val ∧ (0 : Byte).toNat = (0 : Fin 8).val ∧
    8 ≤ (8 : Byte).toNat ∧ ((7 : Byte).toNat ≤ 7 ∧ 8 ≤ (255 : Byte).toNat) ∧
    (at_ 252 255 []).pc.toNat + 3 = 255 ∧ (at_ 253 255 []).pc.toNat + 3 = 256 := by decide

theorem witness_AddWritesTheSumModulo256 : (0 : Byte).toNat = (0 : Fin 8).val ∧ (7 : Byte).toNat = (7 : Fin 8).val ∧
    8 ≤ (8 : Byte).toNat ∧ ((7 : Byte).toNat ≤ 7 ∧ 8 ≤ (8 : Byte).toNat) ∧
    (at_ 252 255 []).pc.toNat + 3 = 255 ∧ (at_ 253 255 []).pc.toNat + 3 = 256 := by decide

/-- `sp` at 1, the last slot, and at 0. -/
theorem witness_PushStoresBelowTheStackPointer : (7 : Byte).toNat = (7 : Fin 8).val ∧ (at_ 0 1 []).sp ≠ 0 ∧
    8 ≤ (8 : Byte).toNat ∧ ((7 : Byte).toNat ≤ 7 ∧ (at_ 0 0 []).sp = 0) ∧
    (at_ 253 255 []).pc.toNat + 2 = 255 ∧ (at_ 254 255 []).pc.toNat + 2 = 256 := by decide

/-- `sp` at 254, the last byte pushed, and at 255. -/
theorem witness_PopLoadsFromTheStackPointer : (7 : Byte).toNat = (7 : Fin 8).val ∧ (at_ 0 254 []).sp ≠ 255 ∧
    8 ≤ (8 : Byte).toNat ∧ ((7 : Byte).toNat ≤ 7 ∧ (at_ 0 255 []).sp = 255) ∧
    (at_ 253 255 []).pc.toNat + 2 = 255 ∧ (at_ 254 255 []).pc.toNat + 2 = 256 := by decide

/-- `pc` at 253, the last place with a return address, and at 254. -/
theorem witness_CallPushesTheReturnAddressAndJumps : (7 : Byte).toNat = (7 : Fin 8).val ∧ (at_ 253 1 []).sp ≠ 0 ∧
    (at_ 253 1 []).pc.toNat + 2 ≤ 255 ∧ 8 ≤ (8 : Byte).toNat ∧ ((7 : Byte).toNat ≤ 7 ∧ (at_ 254 0 []).sp = 0) ∧
    ((at_ 254 1 []).sp ≠ 0 ∧ (at_ 254 1 []).pc = 254) := by decide

theorem witness_RetPopsThePc : (at_ 255 254 []).sp ≠ 255 ∧ (at_ 0 255 []).sp = 255 := by decide

theorem witness_FrameOfRegisterInstructions :
    exec (.ldi 7 1) (at_ 0 255 []) = .next (next (exec (.ldi 7 1) (at_ 0 255 []))) ∧
    destOperand (.ldi 7 1) ≠ some (BitVec.ofNat 8 (6 : Fin 8).val) := ⟨rfl, by decide⟩

/-- An address stored to, and none. -/
theorem witness_FrameOfStoringInstructions :
    exec (.push 0) (at_ 0 1 []) = .next (next (exec (.push 0) (at_ 0 1 []))) ∧
    storeAddress (.push 0) (at_ 0 1 []) = some 0 ∧ storeAddress (.call 0) (at_ 254 1 []) = none := ⟨rfl, by decide⟩

theorem witness_FrameOfLoadingInstructions :
    exec (.pop 0) (at_ 0 254 []) = .next (next (exec (.pop 0) (at_ 0 254 []))) ∧
    destOperand (.pop 0) ≠ some (BitVec.ofNat 8 (7 : Fin 8).val) := ⟨rfl, by decide⟩

/-- A step that changes a register, one that changes a byte, one that changes `OUT`. -/
theorem witness_StepChangesOnlyWhatTheAccessMatrixAllows :
    (step (at_ 0 255 [0x82, 0, 1]) = .next (next (step (at_ 0 255 [0x82, 0, 1]))) ∧
      (next (step (at_ 0 255 [0x82, 0, 1]))).reg 0 ≠ (at_ 0 255 [0x82, 0, 1]).reg 0) ∧
    (step (at_ 0 255 [0x45, 7]) = .next (next (step (at_ 0 255 [0x45, 7]))) ∧
      (next (step (at_ 0 255 [0x45, 7]))).mem.read 254 ≠ (at_ 0 255 [0x45, 7]).mem.read 254) ∧
    (step (at_ 0 255 [0x47, 7]) = .next (next (step (at_ 0 255 [0x47, 7]))) ∧
      (next (step (at_ 0 255 [0x47, 7]))).out ≠ (at_ 0 255 [0x47, 7]).out) :=
  ⟨⟨rfl, by decide⟩, ⟨rfl, by decide⟩, ⟨rfl, by decide⟩⟩

/-- Steps with `sp` at its limits: a PUSH from 1 and a POP from 254. -/
theorem witness_StackPointerMovesByOneAndNeverWraps :
    (step (at_ 9 1 [0x45, 7]) = .next (next (step (at_ 9 1 [0x45, 7]))) ∧ (next (step (at_ 9 1 [0x45, 7]))).sp = 0) ∧
    (step (at_ 9 254 [0x46, 7]) = .next (next (step (at_ 9 254 [0x46, 7]))) ∧
      (next (step (at_ 9 254 [0x46, 7]))).sp = 255) := ⟨⟨rfl, by decide⟩, ⟨rfl, by decide⟩⟩

theorem witness_OnlyCallAndRetTransferControl :
    step (at_ 252 255 [0x82, 0, 1]) = .next (next (step (at_ 252 255 [0x82, 0, 1]))) ∧
    fetch OpcodeMap.default (at_ 252 255 [0x82, 0, 1]) = .ok (.ldi 0 1) ∧
    (next (step (at_ 252 255 [0x82, 0, 1]))).run = .running := ⟨rfl, by decide⟩

theorem witness_OnlyHltHalts : step (at_ 255 255 [0x01]) = .next (next (step (at_ 255 255 [0x01]))) ∧
    (next (step (at_ 255 255 [0x01]))).run = .halted := ⟨rfl, by decide⟩

/-- An error that keeps nothing, and the one that keeps the writes. -/
theorem witness_ErrorsArePrecise :
    (step (at_ 0 0 [0x45, 7]) = .next (next (step (at_ 0 0 [0x45, 7]))) ∧
      (next (step (at_ 0 0 [0x45, 7]))).run = .faulted (.outOfBounds .addr (-1))) ∧
    (step (at_ 254 9 [0x45, 7]) = .next (next (step (at_ 254 9 [0x45, 7]))) ∧
      (next (step (at_ 254 9 [0x45, 7]))).run = .faulted (.unexpectedEnd 256)) := ⟨⟨rfl, by decide⟩, ⟨rfl, by decide⟩⟩

theorem witness_UnsupportedOperationIsUnreachable :
    step (at_ 0 255 [0xA2, 0, 7]) = .next (next (step (at_ 0 255 [0xA2, 0, 7]))) := rfl

theorem witness_UnnamedRegisterTakesNoPart : BitVec.ofNat 8 (7 : Fin 8).val ∉ Instr.regOperands (.push 6) ∧
    exec (.push 6) (at_ 0 255 []) = .next (next (exec (.push 6) (at_ 0 255 []))) := ⟨by decide, rfl⟩

theorem witness_OutIsNeverRead :
    step (at_ 0 255 [0x47, 7]) = .next (next (step (at_ 0 255 [0x47, 7]))) := rfl

/-- A PUSH at 250 that stores on address 252: an illegal byte (R0 = 0) and a HLT (R1 = 1). -/
theorem witness_NextFetchSeesThePushedByte :
    fetch OpcodeMap.default (at_ 250 253 [0x45, 0]) = .ok (.push 0) ∧
    (at_ 250 253 [0x45, 0]).sp.toNat = (at_ 250 253 [0x45, 0]).pc.toNat + 3 ∧
    (at_ 250 253 [0x45, 0]).pc.toNat + 2 < (at_ 250 253 [0x45, 0]).loadedLen.val ∧
    OpcodeMap.default.lookup ((at_ 250 253 [0x45, 0]).reg 0) = none ∧
    OpcodeMap.default.lookup (((at_ 250 253 [0x45, 1]).setReg 1 1).reg 1) = some .hlt := by decide

/-- An answer and an error of the ALU. -/
theorem witness_AluAddsAndMultipliesModulo256 : alu .add ((at_ 0 255 []).reg 7) ((at_ 0 255 []).reg 7) = .ok 254 ∧
    alu .other ((at_ 0 255 []).reg 7) ((at_ 0 255 []).reg 7) = .error (.unsupportedOperation .other) := by decide

theorem witness_AluAlgebraAndSignedReading : alu .add 255 1 = .ok 0 ∧ alu .mul 128 255 = .ok 128 := by decide

/-- The two ends of the range, in and out. -/
theorem witness_MemWriteChangesOneCell : (0 : Int) ≤ 255 ∧ (255 : Int) ≤ 255 ∧ (0 : Int) ≠ 255 ∧ (-1 : Int) < 0 ∧
    (255 : Int) < 256 := by decide

theorem witness_MemoryFormIsCanonical : Memory.wf ⟨[(0, 1), (255, 2)]⟩ ∧
    Memory.wf (placeBytes 255 [2] (placeBytes 0 [1] ⟨[]⟩)) := by decide

/-- From `sp = 1`, through the lowest slot. -/
theorem witness_PopUndoesPush : (at_ 9 1 []).sp ≠ 0 ∧
    exec (.push 7) (at_ 9 1 []) = .next (next (exec (.push 7) (at_ 9 1 []))) ∧
    exec (.pop 6) (next (exec (.push 7) (at_ 9 1 []))) = .next (next (exec (.pop 6) (next (exec (.push 7) (at_ 9 1 []))))) :=
  ⟨by decide, rfl, rfl⟩

/-- From address 253, the last one that `CALL` may stand at. -/
theorem witness_RetReturnsPastTheCall : (at_ 253 255 []).sp ≠ 0 ∧ (at_ 253 255 []).pc.toNat ≤ 253 ∧
    exec (.call 7) (at_ 253 255 []) = .next (next (exec (.call 7) (at_ 253 255 []))) ∧
    exec .ret (next (exec (.call 7) (at_ 253 255 []))) = .next (next (exec .ret (next (exec (.call 7) (at_ 253 255 []))))) :=
  ⟨by decide, by decide, rfl, rfl⟩

theorem witness_PushThenRetIsAnIndirectJump : (7 : Byte).toNat = (7 : Fin 8).val ∧ (at_ 253 1 []).sp ≠ 0 ∧
    (at_ 253 1 []).pc.toNat + 2 ≤ 255 := by decide

theorem witness_LaunchGivesTheResetTable : (List.replicate 256 (1 : Byte)).length ≤ 256 :=
  List.length_replicate.le

theorem witness_LoaderRefusesMoreThan256Bytes : 256 < (List.replicate 257 (1 : Byte)).length := by
  rw [List.length_replicate]; exact Nat.lt_succ_self _

theorem witness_InvariantHoldsAtResetAndLaunch : launch Config.default [0x01] = .ok (launched [0x01]) := rfl

theorem witness_EveryStepKeepsTheInvariant : (at_ 0 255 [0x45, 7]).Inv OpcodeMap.default ∧
    step (at_ 0 255 [0x45, 7]) = .next (next (step (at_ 0 255 [0x45, 7]))) :=
  ⟨⟨by decide, fun _ h => nomatch h⟩, rfl⟩

/-- A run that has stopped after one step, normally and by an error. -/
theorem witness_RunHasAtMostOneOutcome : (runFor OpcodeMap.default 1 (launched [0x01])).run = .halted ∧
    (runFor OpcodeMap.default 1 State.reset).run = .faulted (.unexpectedEnd 0) := by decide

/-- One program, two values of `MEM_FILL`. -/
theorem witness_NoProgramObservesMemFill :
    launch Config.default [0x01] = .ok (launched [0x01]) ∧
    launch { Config.default with memFill := 0x55 } [0x01] =
      .ok { launched [0x01] with mem := placeBytes 0 [0x01] (Memory.filled 0x55) } := ⟨rfl, rfl⟩

/-- Two states that differ in a cell above `LOADED_LEN` and below `sp`, and step: a `POP` from 254. -/
theorem witness_StepKeepsAgreementWhereRead :
    AgreeWhereRead { at_ 0 254 [0x46, 7] with loadedLen := 2 } (({ at_ 0 254 [0x46, 7] with loadedLen := 2 } : State).setByte 2 9) ∧
    step { at_ 0 254 [0x46, 7] with loadedLen := 2 } = .next (next (step { at_ 0 254 [0x46, 7] with loadedLen := 2 })) := by
  refine ⟨⟨fun _ => rfl, rfl, rfl, rfl, rfl, rfl, by decide, ?_⟩, rfl⟩
  intro a h1 h2
  have h1' : 254 ≤ a := h1
  obtain rfl : a = 254 := Nat.le_antisymm h2 h1'
  decide

theorem witness_LaunchesAgreeWhereRead :
    launch Config.default [0x01] = .ok (launched [0x01]) ∧
    launch { Config.default with memFill := 0x55 } [0x01] =
      .ok { launched [0x01] with mem := placeBytes 0 [0x01] (Memory.filled 0x55) } := ⟨rfl, rfl⟩

end Sys2Proof.Tests
end

section
namespace Sys2Proof.Machine

/-- A program that fits memory launches (spec/10_state.md R21: only a byte past address 255 keeps a run from starting). -/
theorem launch_ok_of_fits (c : Config) {program : List Byte} (hfit : program.length ≤ 256) :
    ∃ s, launch c program = .ok s := by
  obtain ⟨mem, hload, -⟩ := loadFrom_ok program 0 (resetWith c) (by omega)
  have hlen : program.length < 257 := by omega
  exact ⟨{ resetWith c with mem := mem, loadedLen := ⟨program.length, hlen⟩ },
    by simp [launch, hload, bind, Except.bind, hlen, pure, Except.pure]⟩

/-- Settles O42: a program that fits launches, and by `launch_inversion` its state is the reset state except for the loaded
memory and `LOADED_LEN`. -/
theorem launchGivesTheResetTable : Obligations.LaunchGivesTheResetTable := by
  intro c program hfit
  obtain ⟨s, hlaunch⟩ := launch_ok_of_fits c hfit
  obtain ⟨hlen, mem, rfl, -, hfill, hbytes⟩ := launch_inversion hlaunch
  have hreg (r : Fin 8) : ({ resetWith c with mem := mem, loadedLen := ⟨program.length, hlen⟩ } : State).reg r =
      if r = 7 then 255 else c.regReset := reg_resetWith c r
  have hunwritten (k : Nat) (hk : program.length ≤ k) (hk' : k ≤ 255) : mem.read k = c.memFill := by
    rw [hfill k hk, Memory.read_filled c.memFill (by omega)]
  exact ⟨_, hlaunch, fun r hr => (hreg r).trans (if_neg hr), hreg 7, rfl, rfl, rfl, hbytes, hunwritten, rfl, rfl⟩

end Sys2Proof.Machine
end

section
namespace Sys2Proof.Machine

/-- The range check of R31: a read outside 0 to 255 raises `OutOfBounds(ADDR, addr)`. -/
theorem memRead_of_out_of_range (s : State) {addr : Int} (h : addr < 0 ∨ 255 < addr) :
    memRead addr s = .error (.outOfBounds .addr addr) :=
  if_neg (by omega)

/-- The range check of R32: a write outside 0 to 255 raises `OutOfBounds(ADDR, addr)`. -/
theorem memWrite_of_out_of_range (s : State) (v : Byte) {addr : Int} (h : addr < 0 ∨ 255 < addr) :
    memWrite addr v s = .error (.outOfBounds .addr addr) :=
  if_neg (by omega)

/-- Settles O36: in range the answer is `setByte`, whose one changed cell is `Memory.read_write_same` and whose other cells
are `Memory.read_write_other`; out of range both accesses fail their check. -/
theorem memWriteChangesOneCell : Obligations.MemWriteChangesOneCell := by
  intro addr v s
  refine ⟨fun h0 h255 => ?_, fun hout => ⟨memWrite_of_out_of_range s v hout, memRead_of_out_of_range s hout⟩⟩
  lift addr to Nat using h0
  have haddr : addr ≤ 255 := by omega
  have hsame : memRead addr (s.setByte addr v) = .ok v := by
    rw [memRead_of_le _ haddr, State.mem_setByte, Memory.read_write_same]
  have hother (b : Int) (hb0 : 0 ≤ b) (hb255 : b ≤ 255) (hne : b ≠ addr) :
      memRead b (s.setByte addr v) = memRead b s := by
    lift b to Nat using hb0
    have hb : b ≤ 255 := by omega
    have hcell : b ≠ addr := by omega
    rw [memRead_of_le _ hb, memRead_of_le _ hb, State.mem_setByte, Memory.read_write_other _ _ hcell]
  exact ⟨s.setByte addr v, memWrite_of_le s haddr v, hsame, hother, fun r => State.reg_setByte s r v addr,
    rfl, rfl, rfl, rfl, rfl⟩

end Sys2Proof.Machine
end

section
namespace Sys2Proof.Machine

/-- A running engine is never stuck (spec/40_cycle.md R78): a raised fetch error is a next state, and a fetched instruction
answers one by `exec_answers`. -/
theorem stepWith_answers_of_running (m : OpcodeMap) {s : State} (hr : s.run = .running) :
    ∃ t, stepWith m s = .next t := by
  cases hf : fetch m s with
  | error e => exact ⟨s.raise e, stepWith_of_fetch_error hr hf⟩
  | ok i =>
    obtain ⟨t, ht, -⟩ := exec_answers i s
    exact ⟨t, (stepWith_of_fetch hr hf).trans ht⟩

/-- Settles O10: a running engine has a next state, and `stepWith`, being a function, has no second one. -/
theorem runningStateHasExactlyOneNextState : Obligations.RunningStateHasExactlyOneNextState := by
  intro m s hr
  obtain ⟨t, ht⟩ := stepWith_answers_of_running m hr
  refine ⟨t, ht, fun u hu => ?_⟩
  have hsame : Host.Outcome.next u = .next t := hu.symm.trans ht
  exact Host.Outcome.next.inj hsame

end Sys2Proof.Machine
end

section
namespace Sys2Proof.Machine

/-- `advance` after writes that leave `pc` and `run` alone is the sequential advance of R76. -/
theorem advancesBy_advance (w : Nat) {s u : State} (hpc : u.pc = s.pc) (hrun : u.run = s.run) :
    AdvancesBy w s (advance w u) := by
  rw [AdvancesBy, ← hpc, ← hrun]
  rcases advance_pc_run w u with ⟨hle, hpc', hrun'⟩ | ⟨hgt, hpc', hrun'⟩
  · exact ⟨fun _ => ⟨hpc', hrun'⟩, fun h256 => by omega⟩
  · exact ⟨fun h255 => by omega, fun _ => ⟨hpc', hrun'⟩⟩

/-- `advance` leaves every byte of memory as the writes before it left it. -/
theorem sameMemory_advance (w : Nat) {s u : State} (hmem : u.mem = s.mem) : SameMemory s (advance w u) := by
  intro a
  rw [mem_advance, hmem]

/-- `advance` after one register write leaves every other register as it was. -/
theorem sameRegsBut_advance_setReg (w : Nat) (s : State) (d : Fin 8) (v : Byte) :
    SameRegsBut d s (advance w (s.setReg d v)) := by
  intro r hr
  rw [reg_advance, State.reg_setReg_other s v hr]

/-- `advance` keeps the register write before it, also where it overflows (R76). -/
theorem reg_advance_setReg_same (w : Nat) (s : State) (d : Fin 8) (v : Byte) :
    (advance w (s.setReg d v)).reg d = v := by
  rw [reg_advance, State.reg_setReg_same]

/-- Settles O13: a register operand completes with the written state advanced, and any other operand is the first failing
check. -/
theorem ldiLoadsTheImmediate : Obligations.LdiLoadsTheImmediate := by
  intro m s a imm
  refine ⟨rfl, fun d ha => ?_, fun hbad => exec_of_raises (.firstReg rfl hbad)⟩
  have hexec : exec (.ldi a imm) s = .next (advance 3 (s.setReg d imm)) := exec_of_completes (.ldi ha)
  exact ⟨_, hexec, reg_advance_setReg_same 3 s d imm, sameRegsBut_advance_setReg 3 s d imm, sameMemory_advance 3 rfl,
    sp_advance 3 _, out_advance 3 _, loadedLen_advance 3 _, advancesBy_advance 3 rfl rfl⟩

/-- Settles O14: a register operand completes with the value emitted before the advance, and any other operand is the
first failing check. -/
theorem prnEmitsTheRegister : Obligations.PrnEmitsTheRegister := by
  intro m s a
  refine ⟨rfl, fun r ha => ?_, fun hbad => exec_of_raises (.firstReg rfl hbad)⟩
  have hexec : exec (.prn a) s = .next (advance 2 (s.emit (s.reg r))) := exec_of_completes (.prn ha)
  exact ⟨_, hexec, out_advance 2 _, fun q => reg_advance 2 _ q, sameMemory_advance 2 rfl,
    sp_advance 2 _, loadedLen_advance 2 _, advancesBy_advance 2 rfl rfl⟩

end Sys2Proof.Machine
end

section
namespace Sys2Proof.Machine

/-- What `advance` after one register write leaves as it was, in the form the rules of MUL and ADD share (R76, R100). -/
theorem frame_advance_setReg (w : Nat) (s : State) (d : Fin 8) (v : Byte) :
    SameRegsBut d s (advance w (s.setReg d v)) ∧ SameMemory s (advance w (s.setReg d v)) ∧
      (advance w (s.setReg d v)).sp = s.sp ∧ (advance w (s.setReg d v)).out = s.out ∧
      (advance w (s.setReg d v)).loadedLen = s.loadedLen ∧ AdvancesBy w s (advance w (s.setReg d v)) :=
  ⟨sameRegsBut_advance_setReg w s d v, sameMemory_advance w rfl, sp_advance w _, out_advance w _, loadedLen_advance w _,
    advancesBy_advance w rfl rfl⟩

/-- Settles O16: two register operands complete with the product written and the state advanced, and otherwise the first
operand that names no register is the first failing check. -/
theorem mulWritesTheProductModulo256 : Obligations.MulWritesTheProductModulo256 := by
  intro m s a b
  refine ⟨rfl, fun ra rb ha hb => ?_, fun hbad => exec_of_raises (.firstReg rfl hbad),
    fun hok hbad => exec_of_raises (.secondReg rfl (Nat.lt_succ_of_le hok) hbad)⟩
  have hexec : exec (.mul a b) s = .next (advance 3 (s.setReg ra (s.reg ra * s.reg rb))) := exec_of_completes (.mul ha hb)
  have hproduct : ((advance 3 (s.setReg ra (s.reg ra * s.reg rb))).reg ra).toNat =
      ((s.reg ra).toNat * (s.reg rb).toNat) % 256 := by
    rw [reg_advance_setReg_same, BitVec.toNat_mul]
  exact ⟨_, hexec, hproduct, frame_advance_setReg 3 s ra _⟩

/-- Settles O17: two register operands complete with the sum written and the state advanced, and otherwise the first
operand that names no register is the first failing check. -/
theorem addWritesTheSumModulo256 : Obligations.AddWritesTheSumModulo256 := by
  intro m s a b
  refine ⟨rfl, fun ra rb ha hb => ?_, fun hbad => exec_of_raises (.firstReg rfl hbad),
    fun hok hbad => exec_of_raises (.secondReg rfl (Nat.lt_succ_of_le hok) hbad)⟩
  have hexec : exec (.add a b) s = .next (advance 3 (s.setReg ra (s.reg ra + s.reg rb))) := exec_of_completes (.add ha hb)
  have hsum : ((advance 3 (s.setReg ra (s.reg ra + s.reg rb))).reg ra).toNat =
      ((s.reg ra).toNat + (s.reg rb).toNat) % 256 := by
    rw [reg_advance_setReg_same, BitVec.toNat_add]
  exact ⟨_, hexec, hsum, frame_advance_setReg 3 s ra _⟩

end Sys2Proof.Machine
end

section
namespace Sys2Proof.Machine

/-- The only errors a fetch raises are those of spec/40_cycle.md R75 rows 1 to 3. -/
theorem fetch_error_cases {m : OpcodeMap} {s : State} {e : ExecError} (h : fetch m s = .error e) :
    e = .unexpectedEnd s.pc.toNat ∨ e = .illegalInstruction s.pc (s.mem.read s.pc.toNat) := by
  rcases fetch_cases m s with ⟨-, hend⟩ | ⟨-, -, hillegal⟩ | ⟨_, -, -, -, hcut⟩ | ⟨_, -, -, hok⟩
  · exact .inl (Except.error.inj (h.symm.trans hend))
  · exact .inr (Except.error.inj (h.symm.trans hillegal))
  · exact .inl (Except.error.inj (h.symm.trans hcut))
  · cases h.symm.trans hok

/-- Every check of an instruction that can fail is a range check (spec/40_cycle.md R75 rows 4 to 7). -/
theorem Raises.eq_outOfBounds {i : Instr} {s : State} {e : ExecError} (h : Raises i s e) :
    ∃ kind v, e = .outOfBounds kind v := by
  cases h <;> exact ⟨_, _, rfl⟩

/-- All `advance` can do to `run` is to end it in `UnexpectedEnd(256)` (R76). -/
theorem run_advance_cases (w : Nat) (s : State) :
    (advance w s).run = s.run ∨ (advance w s).run = .faulted (.unexpectedEnd 256) := by
  rcases advance_pc_run w s with ⟨-, -, hrun⟩ | ⟨-, -, hrun⟩
  · exact .inl hrun
  · exact .inr hrun

/-- All an instruction whose checks pass can do to `run`: halt it, or pass the end of memory. -/
theorem Completes.run_cases {i : Instr} {s t : State} (h : Completes i s t) :
    t.run = s.run ∨ t.run = .halted ∨ t.run = .faulted (.unexpectedEnd 256) := by
  cases h with
  | hlt => exact .inr (.inl rfl)
  | call | ret => exact .inl rfl
  | ldi | prn | mul | add | push | pop => exact (run_advance_cases _ _).imp_right .inr

/-- Every error that a step raises is one of three kinds; `UnsupportedOperation`, the fourth of R131, is none of them. -/
theorem stepWith_error_cases {m : OpcodeMap} {s t : State} {e : ExecError} (h : stepWith m s = .next t)
    (hrun : t.run = .faulted e) :
    (∃ a, e = .unexpectedEnd a) ∨ (∃ pc ir, e = .illegalInstruction pc ir) ∨ ∃ kind v, e = .outOfBounds kind v := by
  obtain ⟨hrunning, ⟨e', hfetch, rfl⟩ | ⟨i, -, hcompletes | ⟨e', hraises, rfl⟩⟩⟩ := stepWith_cases h
  · obtain rfl : e' = e := RunState.faulted.inj hrun
    rcases fetch_error_cases hfetch with rfl | rfl
    · exact .inl ⟨_, rfl⟩
    · exact .inr (.inl ⟨_, _, rfl⟩)
  · rcases hcompletes.run_cases with hsame | hhalted | hend
    · cases hrun.symm.trans (hsame.trans hrunning)
    · cases hrun.symm.trans hhalted
    · exact .inl ⟨256, RunState.faulted.inj (hrun.symm.trans hend)⟩
  · obtain rfl : e' = e := RunState.faulted.inj hrun
    exact .inr (.inr hraises.eq_outOfBounds)

/-- Settles O30: every error of a step is of one of the other three kinds, whose constructors differ from this one. -/
theorem unsupportedOperationIsUnreachable : Obligations.UnsupportedOperationIsUnreachable := by
  intro m s t tag h hrun
  rcases stepWith_error_cases h hrun with ⟨_, he⟩ | ⟨_, _, he⟩ | ⟨_, _, he⟩ <;> cases he

/-- Inside loaded memory a byte that is no opcode is what the fetch raises (spec/40_cycle.md R74, R75 row 2). -/
theorem fetch_of_illegal {m : OpcodeMap} {s : State} (hpc : s.pc.toNat < s.loadedLen.val)
    (hnone : m.lookup (s.mem.read s.pc.toNat) = none) :
    fetch m s = .error (.illegalInstruction s.pc (s.mem.read s.pc.toNat)) := by
  rcases fetch_cases m s with ⟨hle, -⟩ | ⟨-, -, hillegal⟩ | ⟨_, -, hsome, -⟩ | ⟨_, hsome, -⟩
  · omega
  · exact hillegal
  · cases hnone.symm.trans hsome
  · cases hnone.symm.trans hsome

/-- Settles O6: a byte that differs from all nine opcode bytes has no mnemonic, so the fetch raises, and the step takes
that error and nothing else. -/
theorem unknownOpcodeRaisesIllegalInstruction : Obligations.UnknownOpcodeRaisesIllegalInstruction := by
  intro m s hrunning hpc hno
  exact stepWith_of_fetch_error hrunning (fetch_of_illegal hpc (OpcodeMap.lookup_eq_none.2 hno))

end Sys2Proof.Machine
end

section
namespace Sys2Proof

/-! Decoding and encoding undo each other (spec/30_encoding.md R50, R54, R55). -/

/-- `EncodeShape.Statement`, one lemma per constructor, put together: the encoding is the opcode byte and the operands. -/
theorem encode_shape (i : Instr) : Laws.EncodeShape.Statement i := by
  cases i with
  | ldi a imm => exact Laws.EncodeShape.ldi a imm
  | prn a => exact Laws.EncodeShape.prn a
  | hlt => exact Laws.EncodeShape.hlt
  | mul a b => exact Laws.EncodeShape.mul a b
  | add a b => exact Laws.EncodeShape.add a b
  | push a => exact Laws.EncodeShape.push a
  | pop a => exact Laws.EncodeShape.pop a
  | call a => exact Laws.EncodeShape.call a
  | ret => exact Laws.EncodeShape.ret

/-- Settles O1: the encoding starts with the opcode byte, which a distinct assignment looks up to its own mnemonic, and the
operands after it are as many as the mnemonic consumes. -/
theorem decodeEncodeRoundTrip : Obligations.DecodeEncodeRoundTrip := by
  intro m hdistinct i rest
  obtain ⟨operands, hencode, hlen, hassemble⟩ := encode_shape i m rest
  refine decode_ok_iff.2 ⟨m.byte i.opcode, operands ++ rest, i.opcode, ?_, hdistinct.lookup_byte _, ?_, hassemble.symm, ?_⟩
  · rw [hencode, List.cons_append]
  · rw [List.length_append, hlen]
    exact Nat.le_add_right _ _
  · rw [← hlen, List.drop_left]

/-- The encoding of an assembled instruction: the opcode byte and the operands that the mnemonic consumes (R50, R51). -/
theorem encode_assemble (m : OpcodeMap) (op : Opcode) (a b : Byte) :
    encode m (op.assemble a b) = m.byte op :: [a, b].take op.nops := by cases op <;> rfl

/-- A list that is long enough starts with its first two entries, cut to the length asked for. -/
theorem take_pair_getD {n : Nat} {l : List Byte} (hn : n ≤ 2) (hl : n ≤ l.length) :
    [l.getD 0 0, l.getD 1 0].take n = l.take n := by
  match n, l with
  | 0, _ => rfl
  | 1, _ :: _ => rfl
  | 2, _ :: _ :: _ => rfl

/-- Settles O2: what decodes is an opcode byte and its operands, which is what the assembled instruction encodes to, and the
rest is what is left after them. -/
theorem decodedBytesAreTheEncoding : Obligations.DecodedBytesAreTheEncoding := by
  intro m bytes i rest h
  obtain ⟨ir, tail, op, rfl, hlookup, hnops, rfl, rfl⟩ := decode_ok_iff.1 h
  rw [encode_assemble, OpcodeMap.byte_of_lookup hlookup, take_pair_getD op.nops_le hnops, List.cons_append,
    List.take_append_drop]

/-- A byte is an opcode exactly if it is one of the nine (R54, R57). -/
theorem OpcodeMap.isSome_lookup {m : OpcodeMap} {ir : Byte} : (m.lookup ir).isSome ↔ ∃ op, m.byte op = ir := by
  simp [OpcodeMap.lookup]

/-- The nine opcode bytes as numbers. -/
def OpcodeMap.byteNumbers (m : OpcodeMap) : List Nat := Opcode.all.map (fun op => (m.byte op).toNat)

theorem OpcodeMap.Distinct.nodup_byteNumbers {m : OpcodeMap} (h : m.Distinct) : m.byteNumbers.Nodup := by
  have : m.byteNumbers = (Opcode.all.map m.byte).map BitVec.toNat := by simp [OpcodeMap.byteNumbers]
  rw [this]
  exact List.Nodup.map (fun _ _ => BitVec.eq_of_toNat_eq) h

/-- Among the 256 byte values the opcodes are the nine of the assignment, each once. -/
theorem OpcodeMap.Distinct.filter_isSome_perm {m : OpcodeMap} (h : m.Distinct) :
    ((List.range 256).filter (fun n => (m.lookup (BitVec.ofNat 8 n)).isSome)).Perm m.byteNumbers := by
  rw [List.perm_ext_iff_of_nodup (List.nodup_range.filter _) h.nodup_byteNumbers]
  intro n
  simp only [List.mem_filter, List.mem_range, OpcodeMap.isSome_lookup, OpcodeMap.byteNumbers, List.mem_map,
    Opcode.mem_all, true_and]
  constructor
  · rintro ⟨hn, op, hop⟩
    exact ⟨op, by rw [hop, BitVec.toNat_ofNat, Nat.mod_eq_of_lt hn]⟩
  · rintro ⟨op, rfl⟩
    exact ⟨(m.byte op).isLt, op, by rw [BitVec.ofNat_toNat, BitVec.setWidth_eq]⟩

/-- Settles O3: of the 256 byte values the nine opcode bytes are looked up, so the other 247 are not. -/
theorem illegalOpcodesNumber247 : Obligations.IllegalOpcodesNumber247 := by
  intro m hdistinct
  refine ⟨fun ir => OpcodeMap.isSome_lookup, ?_⟩
  have hlegal : (List.range 256).countP (fun n => (m.lookup (BitVec.ofNat 8 n)).isSome) = 9 := by
    rw [List.countP_eq_length_filter, hdistinct.filter_isSome_perm.length_eq]
    rfl
  have hsplit := List.length_eq_countP_add_countP (fun n => (m.lookup (BitVec.ofNat 8 n)).isSome) (l := List.range 256)
  simp only [List.length_range, hlegal, decide_not, Bool.decide_eq_true, Option.not_isSome] at hsplit
  omega

/-- Settles O4: each word is decoded by evaluation. -/
theorem specWordsDecode : Obligations.SpecWordsDecode := by
  unfold Obligations.SpecWordsDecode
  decide

end Sys2Proof
end

section
namespace Sys2Proof

/-- A mnemonic uses only the operand bytes that it consumes (R50, R51). -/
theorem Opcode.assemble_congr (op : Opcode) {a a' b b' : Byte} (ha : 1 ≤ op.nops → a = a') (hb : 2 ≤ op.nops → b = b') :
    op.assemble a b = op.assemble a' b' := by
  cases op with
  | ldi | mul | add => rw [ha (by decide), hb (by decide)]
  | prn | push | pop | call => rw [ha (by decide)]; rfl
  | hlt | ret => rfl

namespace Machine

/-! ## What a fetch answers, row by row (spec/40_cycle.md R71 to R74); `fetch_of_illegal` is the row between the first two -/

theorem fetch_of_past (m : OpcodeMap) {s : State} (hpc : s.loadedLen.val ≤ s.pc.toNat) :
    fetch m s = .error (.unexpectedEnd s.pc.toNat) := if_pos hpc

theorem fetch_of_cutOff {m : OpcodeMap} {s : State} {op : Opcode}
    (hop : m.lookup (s.mem.read s.pc.toNat) = some op) (hcut : s.loadedLen.val ≤ s.pc.toNat + op.nops) :
    fetch m s = .error (.unexpectedEnd s.pc.toNat) := by
  rcases fetch_cases m s with ⟨-, h⟩ | ⟨-, hnone, -⟩ | ⟨_, -, -, -, h⟩ | ⟨op', hop', hfit, -⟩
  · exact h
  · cases hnone.symm.trans hop
  · exact h
  · cases hop.symm.trans hop'
    omega

theorem fetch_of_lookup {m : OpcodeMap} {s : State} {op : Opcode} (hop : m.lookup (s.mem.read s.pc.toNat) = some op)
    (hfit : s.pc.toNat + op.nops < s.loadedLen.val) :
    fetch m s = .ok (op.assemble (s.mem.read (s.pc.toNat + 1)) (s.mem.read (s.pc.toNat + 2))) := by
  rcases fetch_cases m s with ⟨hpast, -⟩ | ⟨-, hnone, -⟩ | ⟨op', -, hop', hcut, -⟩ | ⟨op', hop', -, h⟩
  · omega
  · cases hnone.symm.trans hop
  · cases hop.symm.trans hop'
    omega
  · cases hop.symm.trans hop'
    exact h

/-- Settles O7: both ends of loaded memory are what the fetch raises, and the step takes that error. -/
theorem fetchPastLoadedMemoryRaisesUnexpectedEnd : Obligations.FetchPastLoadedMemoryRaisesUnexpectedEnd := by
  intro m s hrunning
  exact ⟨fun hpc => stepWith_of_fetch_error hrunning (fetch_of_past m hpc),
    fun op _ hop hcut => stepWith_of_fetch_error hrunning (fetch_of_cutOff hop hcut)⟩

/-- Settles O8: both errors that a fetch raises have another name. -/
theorem fetchNeverRaisesOutOfBounds : Obligations.FetchNeverRaisesOutOfBounds := by
  intro m s kind v h
  rcases fetch_error_cases h with he | he <;> cases he

/-- Settles O9: each row of the fetch in the one state is the same row in the other. -/
theorem fetchDependsOnlyOnTheBytesAtPc : Obligations.FetchDependsOnlyOnTheBytesAtPc := by
  intro m s t hpc hlen hbytes
  have hfirst (hin : s.pc.toNat < s.loadedLen.val) : s.mem.read s.pc.toNat = t.mem.read t.pc.toNat := by
    rw [← hpc]
    exact hbytes 0 (by omega) hin
  rcases fetch_cases m s with ⟨hpast, h⟩ | ⟨hin, hnone, h⟩ | ⟨op, hin, hop, hcut, h⟩ | ⟨op, hop, hfit, h⟩
  · rw [h, hpc]
    rw [hpc, hlen] at hpast
    exact (fetch_of_past m hpast).symm
  · rw [hfirst hin] at hnone h
    rw [h, hpc]
    rw [hpc, hlen] at hin
    exact (fetch_of_illegal hin hnone).symm
  · rw [hfirst hin] at hop
    rw [h, hpc]
    rw [hpc, hlen] at hcut
    exact (fetch_of_cutOff hop hcut).symm
  · rw [hfirst (by omega)] at hop
    have hoperands : op.assemble (s.mem.read (s.pc.toNat + 1)) (s.mem.read (s.pc.toNat + 2)) =
        op.assemble (t.mem.read (t.pc.toNat + 1)) (t.mem.read (t.pc.toNat + 2)) := by
      rw [← hpc]
      exact op.assemble_congr (fun hn => hbytes 1 (by omega) (by omega)) (fun hn => hbytes 2 (by omega) (by omega))
    rw [h, hoperands]
    rw [hpc, hlen] at hfit
    exact (fetch_of_lookup hop hfit).symm

/-! ## The loaded bytes from `pc` up -/

theorem length_loadedBytes (s : State) : s.loadedBytes.length = s.loadedLen.val - s.pc.toNat := by
  simp [State.loadedBytes]

theorem getD_loadedBytes (s : State) {k : Nat} (hk : s.pc.toNat + k < s.loadedLen.val) :
    s.loadedBytes.getD k 0 = s.mem.read (s.pc.toNat + k) := by
  have hk' : k < s.loadedLen.val - s.pc.toNat := by omega
  simp [State.loadedBytes, List.getD_eq_getElem?_getD, hk']

/-- The instruction that the loaded bytes decode to is the one fetched (R70 to R74). -/
theorem fetch_of_decode {m : OpcodeMap} {s : State} {i : Instr} {rest : List Byte}
    (h : decode m s.loadedBytes = .ok (i, rest)) : fetch m s = .ok i := by
  obtain ⟨ir, tail, op, hbytes, hop, hnops, rfl, -⟩ := decode_ok_iff.1 h
  have hlen : tail.length + 1 = s.loadedLen.val - s.pc.toNat := by
    rw [← length_loadedBytes, hbytes, List.length_cons]
  have hir : ir = s.mem.read s.pc.toNat := by
    have := getD_loadedBytes s (k := 0) (by omega)
    rwa [hbytes] at this
  have htail (k : Nat) (hk : k < tail.length) : s.mem.read (s.pc.toNat + (k + 1)) = tail.getD k 0 := by
    rw [← getD_loadedBytes s (by omega), hbytes, List.getD_cons_succ]
  rw [hir] at hop
  rw [fetch_of_lookup hop (by omega)]
  exact congrArg _ (op.assemble_congr (fun hn => htail 0 (by omega)) (fun hn => htail 1 (by omega)))

/-- Settles O5: the fetch answers the instruction that the loaded bytes decode to, and the step is its `exec`. -/
theorem stepRunsTheDecodedInstruction : Obligations.StepRunsTheDecodedInstruction :=
  ⟨fun _ _ _ _ hrunning h => stepWith_of_fetch hrunning (fetch_of_decode h),
    fun _ _ _ hrunning h => stepWith_of_fetch hrunning (fetch_of_decode h)⟩

/-! ## The word that `withFetchWord` places -/

theorem read_placeBytes_three (mem : Memory) {a : Nat} (ha : a + 2 ≤ 255) (x y z : Byte) :
    (placeBytes a [x, y, z] mem).read a = x ∧ (placeBytes a [x, y, z] mem).read (a + 1) = y ∧
      (placeBytes a [x, y, z] mem).read (a + 2) = z := by
  have h0 : a ≤ 255 := by omega
  have h1 : a + 1 ≤ 255 := by omega
  simp [placeBytes, h0, h1, ha, Nat.add_assoc]

theorem decode_of_decodeTableWord {nbits w : Nat} {i : Instr} (h : decodeTableWord nbits w = some i) :
    ∃ rest, decode OpcodeMap.default (tableBytes nbits w) = .ok (i, rest) := by
  unfold decodeTableWord at h
  split at h
  · next j rest hdecode =>
    obtain rfl : j = i := Option.some.inj h
    exact ⟨rest, hdecode⟩
  · cases h

theorem fetch_withFetchWord {s : State} {nbits w : Nat} {i : Instr} (hpc : s.pc.toNat ≤ 253)
    (hword : decodeTableWord nbits w = some i) : fetch OpcodeMap.default (s.withFetchWord nbits w) = .ok i := by
  obtain ⟨rest, hdecode⟩ := decode_of_decodeTableWord hword
  obtain ⟨ir, tail, op, hbytes, hop, -, rfl, -⟩ := decode_ok_iff.1 hdecode
  obtain ⟨rfl, rfl⟩ := List.cons.inj hbytes
  obtain ⟨hfirst, hsecond, hthird⟩ := read_placeBytes_three s.mem (a := s.pc.toNat) (by omega) (tableByte nbits w 0)
    (tableByte nbits w 1) (tableByte nbits w 2)
  have hlen : s.pc.toNat + 3 ≤ (s.withFetchWord nbits w).loadedLen.val :=
    (Nat.le_min.2 ⟨le_rfl, by omega⟩).trans (Nat.le_max_right _ _)
  have hlookup : OpcodeMap.default.lookup ((s.withFetchWord nbits w).mem.read s.pc.toNat) = some op :=
    (congrArg _ hfirst).trans hop
  have hfit : s.pc.toNat + op.nops < (s.withFetchWord nbits w).loadedLen.val := by
    have := op.nops_le
    omega
  exact (fetch_of_lookup hlookup hfit).trans (congrArg _ (congrArg₂ _ hsecond hthird))

/-- Settles O12: the placed word is fetched, and the engine runs, so the step is its `exec`. -/
theorem placedWordIsTheNextInstruction : Obligations.PlacedWordIsTheNextInstruction :=
  fun _ _ _ _ hpc hword => stepWith_of_fetch rfl (fetch_withFetchWord hpc hword)

/-- Settles O11: `stepWith` looks at `run` first. -/
theorem stoppedEngineHasNoStep : Obligations.StoppedEngineHasNoStep := by
  intro m s
  constructor
  · intro hhalted
    simp only [stepWith, hhalted]
  · intro e hfaulted
    simp only [stepWith, hfaulted]

end Machine
end Sys2Proof
end

section
namespace Sys2Proof.Machine

/-! ## The frame of an instruction, field by field (spec/10_state.md section 12) -/

/-- The byte that names register `d` is `d`. -/
theorem ofNat_of_toNat_eq_val {a : Byte} {d : Fin 8} (ha : a.toNat = d.val) : BitVec.ofNat 8 d.val = a := by
  rw [← ha, BitVec.ofNat_toNat, BitVec.setWidth_eq]

/-- A register that a destination operand does not name differs from the one it names. -/
theorem ne_of_operand_ne {a : Byte} {d r : Fin 8} (ha : a.toNat = d.val) (hr : some a ≠ some (BitVec.ofNat 8 r.val)) :
    r ≠ d := by
  rintro rfl
  exact hr (congrArg some (ofNat_of_toNat_eq_val ha).symm)

theorem storeSlot_of_succ {s : State} {slot : Byte} (h : slot.toNat + 1 = s.sp.toNat) : storeSlot s = .ok slot := by
  rcases storeSlot_cases s with ⟨slot', h', hs⟩ | ⟨h0, -⟩
  · rwa [BitVec.eq_of_toNat_eq (show slot.toNat = slot'.toNat by omega)]
  · rw [h0] at h
    cases h

theorem returnAddress_of_add_two {s : State} {ret : Byte} (h : ret.toNat = s.pc.toNat + 2) :
    returnAddress s = .ok ret := by
  rcases returnAddress_cases s with ⟨ret', h', hr⟩ | ⟨hpc, -⟩
  · rwa [BitVec.eq_of_toNat_eq (h.trans h'.symm)]
  · omega

theorem storeAddress_push {s : State} {a slot : Byte} {r : Fin 8} (ha : a.toNat = r.val)
    (hs : slot.toNat + 1 = s.sp.toNat) : storeAddress (.push a) s = some slot.toNat := by
  simp only [storeAddress, regidx_ok ha, storeSlot_of_succ hs]

theorem storeAddress_call {s : State} {a slot ret : Byte} {r : Fin 8} (ha : a.toNat = r.val)
    (hs : slot.toNat + 1 = s.sp.toNat) (hr : ret.toNat = s.pc.toNat + 2) :
    storeAddress (.call a) s = some slot.toNat := by
  simp only [storeAddress, regidx_ok ha, storeSlot_of_succ hs, returnAddress_of_add_two hr]

section
variable {i : Instr} {s t : State}

theorem Completes.reg_of_not_dest (h : Completes i s t) {r : Fin 8}
    (hr : destOperand i ≠ some (BitVec.ofNat 8 r.val)) : t.reg r = s.reg r := by
  cases h with
  | ldi ha | mul ha | add ha => rw [reg_advance, State.reg_setReg_other _ _ (ne_of_operand_ne ha hr)]
  | pop ha => rw [reg_advance, State.reg_setSp, State.reg_setReg_other _ _ (ne_of_operand_ne ha hr)]
  | prn | push => rw [reg_advance]; rfl
  | hlt | call | ret => rfl

/-- An instruction changes a byte of memory only at its store address, which is its new `sp` and lies below the old one. -/
theorem Completes.store_of_changed (h : Completes i s t) {a : Nat} (ha : t.mem.read a ≠ s.mem.read a) :
    storeAddress i s = some a ∧ t.sp.toNat = a ∧ a + 1 = s.sp.toNat := by
  have slot_eq {slot v : Byte} (hchanged : (s.mem.write slot.toNat v).read a ≠ s.mem.read a) : a = slot.toNat :=
    by_contra fun hne => hchanged (Memory.read_write_other s.mem v hne)
  cases h with
  | push hreg hs =>
    rw [mem_advance] at ha
    obtain rfl := slot_eq ha
    exact ⟨storeAddress_push hreg hs, congrArg _ (sp_advance 2 _), hs⟩
  | call hreg hs hr =>
    obtain rfl := slot_eq ha
    exact ⟨storeAddress_call hreg hs hr, rfl, hs⟩
  | ldi | prn | mul | add | pop => exact absurd (by rw [mem_advance]; rfl) ha
  | hlt | ret => exact absurd rfl ha

theorem Completes.out_cases (h : Completes i s t) :
    t.out = s.out ∨ ∃ (a : Byte) (r : Fin 8), i = .prn a ∧ a.toNat = r.val ∧ t.out = s.out ++ [s.reg r] := by
  cases h with
  | prn ha => exact .inr ⟨_, _, rfl, ha, out_advance 2 _⟩
  | ldi | mul | add | push | pop => exact .inl (out_advance _ _)
  | hlt | call | ret => exact .inl rfl

theorem Completes.loadedLen_eq (h : Completes i s t) : t.loadedLen = s.loadedLen := by
  cases h with
  | ldi | prn | mul | add | push | pop => exact loadedLen_advance _ _
  | hlt | call | ret => rfl

/-- The four stack instructions move `sp` by one, as a number, and no other instruction moves it (D8, D9). -/
theorem Completes.sp_cases (h : Completes i s t) :
    t.sp = s.sp ∨ (t.sp.toNat + 1 = s.sp.toNat ∧ ∃ a, i = .push a ∨ i = .call a) ∨
      (t.sp.toNat = s.sp.toNat + 1 ∧ ((∃ a, i = .pop a) ∨ i = .ret)) := by
  cases h with
  | push _ hs => exact .inr (.inl ⟨by rwa [sp_advance], _, .inl rfl⟩)
  | call _ hs => exact .inr (.inl ⟨hs, _, .inr rfl⟩)
  | pop _ hs => exact .inr (.inr ⟨by rwa [sp_advance], .inl ⟨_, rfl⟩⟩)
  | ret hs => exact .inr (.inr ⟨hs, .inr rfl⟩)
  | ldi | prn | mul | add => exact .inl (sp_advance _ _)
  | hlt => exact .inl rfl

/-- `HLT` alone halts; what `Completes.run_cases` says, with the instruction named. -/
theorem Completes.run_cases_named (h : Completes i s t) :
    t.run = s.run ∨ (i = .hlt ∧ t.run = .halted) ∨ t.run = .faulted (.unexpectedEnd 256) := by
  cases h with
  | hlt => exact .inr (.inl ⟨rfl, rfl⟩)
  | call | ret => exact .inl rfl
  | ldi | prn | mul | add | push | pop => exact (run_advance_cases _ _).imp_right .inr

/-- Every instruction but `HLT`, `CALL` and `RET` advances by its length (R76, R124). -/
theorem Completes.advancesBy_length (h : Completes i s t) (hhlt : i ≠ .hlt) (hcall : ∀ a, i ≠ .call a)
    (hret : i ≠ .ret) : AdvancesBy i.length s t := by
  cases h with
  | ldi | prn | mul | add | push | pop => exact advancesBy_advance _ rfl rfl
  | hlt => exact absurd rfl hhlt
  | call => exact absurd rfl (hcall _)
  | ret => exact absurd rfl hret

/-- Of an instruction whose checks pass, the one error is the advance overflow, which leaves `pc = 0` (D7). -/
theorem Completes.pc_of_faulted (h : Completes i s t) (hrunning : s.run = .running) {e : ExecError}
    (hrun : t.run = .faulted e) : e = .unexpectedEnd 256 ∧ t.pc = 0 := by
  have advance_fault {w : Nat} {u : State} (hu : u.run = .running) (hf : (advance w u).run = .faulted e) :
      e = .unexpectedEnd 256 ∧ (advance w u).pc = 0 := by
    rcases advance_pc_run w u with ⟨-, -, hsame⟩ | ⟨-, hpc, hend⟩
    · cases hf.symm.trans (hsame.trans hu)
    · exact ⟨RunState.faulted.inj (hf.symm.trans hend), hpc⟩
  cases h with
  | ldi | prn | mul | add | push | pop => exact advance_fault hrunning hrun
  | hlt => cases hrun
  | call | ret => cases hrun.symm.trans hrunning

/-! ## The same of whatever an instruction answers, an error included -/

theorem Answers.reg_of_not_dest (h : Answers i s t) {r : Fin 8} (hr : destOperand i ≠ some (BitVec.ofNat 8 r.val)) :
    t.reg r = s.reg r := by
  obtain h | ⟨e, -, rfl⟩ := h
  · exact h.reg_of_not_dest hr
  · rfl

theorem Answers.store_of_changed (h : Answers i s t) {a : Nat} (ha : t.mem.read a ≠ s.mem.read a) :
    storeAddress i s = some a := by
  obtain h | ⟨e, -, rfl⟩ := h
  · exact (h.store_of_changed ha).1
  · exact absurd rfl ha

theorem Answers.sameMemoryBut (h : Answers i s t) {addr : Nat} (haddr : storeAddress i s = some addr) :
    SameMemoryBut addr s t := fun _ ha =>
  by_contra fun hchanged => ha (Option.some.inj ((h.store_of_changed hchanged).symm.trans haddr))

theorem Answers.sameMemory (h : Answers i s t) (hnone : storeAddress i s = none) : SameMemory s t := fun _ =>
  by_contra fun hchanged => Option.some_ne_none _ ((h.store_of_changed hchanged).symm.trans hnone)

theorem Answers.out_cases (h : Answers i s t) :
    t.out = s.out ∨ ∃ (a : Byte) (r : Fin 8), i = .prn a ∧ a.toNat = r.val ∧ t.out = s.out ++ [s.reg r] := by
  obtain h | ⟨e, -, rfl⟩ := h
  · exact h.out_cases
  · exact .inl rfl

theorem Answers.out_eq (h : Answers i s t) (hi : ∀ a, i ≠ .prn a) : t.out = s.out := by
  rcases h.out_cases with hout | ⟨a, -, rfl, -⟩
  · exact hout
  · exact absurd rfl (hi a)

theorem Answers.loadedLen_eq (h : Answers i s t) : t.loadedLen = s.loadedLen := by
  obtain h | ⟨e, -, rfl⟩ := h
  · exact h.loadedLen_eq
  · rfl

theorem Answers.sp_cases (h : Answers i s t) :
    t.sp = s.sp ∨ (t.sp.toNat + 1 = s.sp.toNat ∧ ∃ a, i = .push a ∨ i = .call a) ∨
      (t.sp.toNat = s.sp.toNat + 1 ∧ ((∃ a, i = .pop a) ∨ i = .ret)) := by
  obtain h | ⟨e, -, rfl⟩ := h
  · exact h.sp_cases
  · exact .inl rfl

theorem Answers.run_cases (h : Answers i s t) :
    t.run = s.run ∨ (i = .hlt ∧ t.run = .halted) ∨ ∃ e, t.run = .faulted e := by
  obtain h | ⟨e, -, rfl⟩ := h
  · exact h.run_cases_named.imp_right (.imp_right fun hend => ⟨_, hend⟩)
  · exact .inr (.inr ⟨e, rfl⟩)

theorem Answers.run_cases_of_ne_hlt (h : Answers i s t) (hi : i ≠ .hlt) : t.run = s.run ∨ ∃ e, t.run = .faulted e :=
  h.run_cases.imp_right fun hrun => hrun.resolve_left fun hhlt => hi hhlt.1

/-- The five instructions without a stack access leave `sp` as it is. -/
theorem Answers.sp_eq (h : Answers i s t) (hi : i.opcode ∉ [.push, .call, .pop, .ret]) : t.sp = s.sp := by
  rcases h.sp_cases with hsp | ⟨-, a, rfl | rfl⟩ | ⟨-, ⟨a, rfl⟩ | rfl⟩
  · exact hsp
  all_goals exact absurd (by simp [Instr.opcode]) hi

end

/-- Settles O22: the five instructions store nowhere and leave `sp`, and the rest is the frame of every instruction. -/
theorem frameOfRegisterInstructions : Obligations.FrameOfRegisterInstructions := by
  intro i s t hi h
  have hanswers := exec_inversion h
  have hno : storeAddress i s = none ∧ i.opcode ∉ [.push, .call, .pop, .ret] := by
    rcases hi with ⟨_, _, rfl⟩ | ⟨_, _, rfl⟩ | ⟨_, _, rfl⟩ | ⟨_, rfl⟩ | rfl <;>
      exact ⟨rfl, by simp [Instr.opcode]⟩
  obtain ⟨hstore, hstack⟩ := hno
  exact ⟨fun r hr => hanswers.reg_of_not_dest hr, hanswers.sp_eq hstack, hanswers.sameMemory hstore,
    hanswers.loadedLen_eq, hanswers.out_eq, hanswers.run_cases⟩

/-- Settles O23: `PUSH` and `CALL` name no destination, and change memory at their store address alone. -/
theorem frameOfStoringInstructions : Obligations.FrameOfStoringInstructions := by
  intro i s t hi h
  have hanswers := exec_inversion h
  have hno : destOperand i = none ∧ (∀ a, i ≠ .prn a) ∧ i ≠ .hlt := by
    rcases hi with ⟨_, rfl⟩ | ⟨_, rfl⟩ <;> exact ⟨rfl, by simp, by simp⟩
  obtain ⟨hdest, hprn, hhlt⟩ := hno
  have hregs (r : Fin 8) : t.reg r = s.reg r := hanswers.reg_of_not_dest (by rw [hdest]; nofun)
  exact ⟨hregs, hanswers.out_eq hprn, hanswers.loadedLen_eq, fun addr => hanswers.sameMemoryBut, hanswers.sameMemory,
    hanswers.run_cases_of_ne_hlt hhlt⟩

/-- Settles O24: `POP` and `RET` store nowhere, print nothing and do not halt. -/
theorem frameOfLoadingInstructions : Obligations.FrameOfLoadingInstructions := by
  intro i s t hi h
  have hanswers := exec_inversion h
  have hno : storeAddress i s = none ∧ (∀ a, i ≠ .prn a) ∧ i ≠ .hlt := by
    rcases hi with ⟨_, rfl⟩ | rfl <;> exact ⟨rfl, by simp, by simp⟩
  obtain ⟨hstore, hprn, hhlt⟩ := hno
  exact ⟨fun r hr => hanswers.reg_of_not_dest hr, hanswers.sameMemory hstore, hanswers.out_eq hprn,
    hanswers.loadedLen_eq, hanswers.run_cases_of_ne_hlt hhlt⟩

end Sys2Proof.Machine
end

section
namespace Sys2Proof.Machine

/-! ## The frame of a step -/

/-- A step raises an error, of the fetch or of a check, and changes nothing else; or the fetched instruction completes. -/
theorem stepWith_raises_or_completes {m : OpcodeMap} {s t : State} (h : stepWith m s = .next t) :
    (∃ e, t = s.raise e ∧ (fetch m s = .error e ∨ ∃ i, fetch m s = .ok i ∧ Raises i s e)) ∨
      ∃ i, fetch m s = .ok i ∧ Completes i s t := by
  obtain ⟨-, ⟨e, hfetch, rfl⟩ | ⟨i, hfetch, hcompletes | ⟨e, hraises, rfl⟩⟩⟩ := stepWith_cases h
  · exact .inl ⟨e, rfl, .inl hfetch⟩
  · exact .inr ⟨i, hfetch, hcompletes⟩
  · exact .inl ⟨e, rfl, .inr ⟨i, hfetch, hraises⟩⟩

theorem stepWith_of_completes {m : OpcodeMap} {s t : State} {i : Instr} (hrunning : s.run = .running)
    (hfetch : fetch m s = .ok i) (h : Completes i s t) : stepWith m s = .next t :=
  (stepWith_of_fetch hrunning hfetch).trans (exec_of_completes h)

theorem stepWith_of_raises {m : OpcodeMap} {s : State} {i : Instr} {e : ExecError} (hrunning : s.run = .running)
    (hfetch : fetch m s = .ok i) (h : Raises i s e) : stepWith m s = .next (s.raise e) :=
  (stepWith_of_fetch hrunning hfetch).trans (exec_of_raises h)

theorem running_of_stepWith {m : OpcodeMap} {s t : State} (h : stepWith m s = .next t) : s.run = .running :=
  (stepWith_cases h).1

theorem loadedLen_stepWith {m : OpcodeMap} {s t : State} (h : stepWith m s = .next t) : t.loadedLen = s.loadedLen := by
  rcases stepWith_raises_or_completes h with ⟨e, rfl, -⟩ | ⟨i, -, hcompletes⟩
  · rfl
  · exact hcompletes.loadedLen_eq

/-- Settles O25: an error changes none of the four, and for a completed instruction each is its frame read backwards. -/
theorem stepChangesOnlyWhatTheAccessMatrixAllows : Obligations.StepChangesOnlyWhatTheAccessMatrixAllows := by
  intro m s t h
  refine ⟨?_, ?_, ?_, loadedLen_stepWith h⟩
  all_goals rcases stepWith_raises_or_completes h with ⟨e, rfl, -⟩ | ⟨i, hfetch, hcompletes⟩
  · exact fun _ hchanged => absurd rfl hchanged
  · exact fun r hchanged => ⟨i, hfetch, by_contra fun hne => hchanged (hcompletes.reg_of_not_dest hne)⟩
  · exact fun _ hchanged => absurd rfl hchanged
  · exact fun a hchanged => ⟨i, hfetch, (hcompletes.store_of_changed hchanged).1⟩
  · exact fun hchanged => absurd rfl hchanged
  · intro hchanged
    obtain ⟨a, r, rfl, ha, hout⟩ := hcompletes.out_cases.resolve_left hchanged
    exact ⟨a, r, hfetch, ha, hout⟩

/-- Settles O26: an error leaves `sp`, and a completed instruction moves it as `Completes.sp_cases` says. -/
theorem stackPointerMovesByOneAndNeverWraps : Obligations.StackPointerMovesByOneAndNeverWraps := by
  intro m s t h
  rcases stepWith_raises_or_completes h with ⟨e, rfl, -⟩ | ⟨i, hfetch, hcompletes⟩
  · exact .inl rfl
  · rcases hcompletes.sp_cases with hsp | ⟨hsp, a, rfl | rfl⟩ | ⟨hsp, ⟨a, rfl⟩ | rfl⟩
    · exact .inl hsp
    · exact .inr (.inl ⟨hsp, a, .inl hfetch⟩)
    · exact .inr (.inl ⟨hsp, a, .inr hfetch⟩)
    · exact .inr (.inr ⟨hsp, .inl ⟨a, hfetch⟩⟩)
    · exact .inr (.inr ⟨hsp, .inr hfetch⟩)

/-- Settles O28: `HLT` is the one instruction that a running engine completes into `HALTED`. -/
theorem onlyHltHalts : Obligations.OnlyHltHalts := by
  intro m s t h hhalted
  rcases stepWith_raises_or_completes h with ⟨e, rfl, -⟩ | ⟨i, hfetch, hcompletes⟩
  · cases hhalted
  · rcases hcompletes.run_cases_named with hsame | ⟨rfl, -⟩ | hend
    · cases hhalted.symm.trans (hsame.trans (running_of_stepWith h))
    · exact hfetch
    · cases hhalted.symm.trans hend

/-- Settles O27: an engine that still runs has completed its instruction, `HLT` does not leave it running, and the advance
of the others did not overflow, since a fetched instruction ends at 256 at most. -/
theorem onlyCallAndRetTransferControl : Obligations.OnlyCallAndRetTransferControl := by
  intro m s t i h hfetch hrun hcall hret
  rcases stepWith_raises_or_completes h with ⟨e, rfl, -⟩ | ⟨i', hfetch', hcompletes⟩
  · cases hrun
  · cases hfetch.symm.trans hfetch'
    have hhlt : i ≠ .hlt := by
      rintro rfl
      cases hcompletes
      cases hrun
    obtain ⟨hinside, hoverflow⟩ := hcompletes.advancesBy_length hhlt hcall hret
    have hne : s.pc.toNat + i.length ≠ 256 := fun h256 => by cases hrun.symm.trans (hoverflow h256).2
    have hle := pc_add_length_le_256_of_fetch hfetch
    exact (hinside (by omega)).1

/-- A raised error, of the fetch or of a check, is never the advance overflow's `UnexpectedEnd(256)`. -/
theorem raised_ne_unexpectedEnd_256 {m : OpcodeMap} {s : State} {e : ExecError}
    (h : fetch m s = .error e ∨ ∃ i, fetch m s = .ok i ∧ Raises i s e) : e ≠ .unexpectedEnd 256 := by
  rcases h with hfetch | ⟨i, -, hraises⟩
  · rcases fetch_error_cases hfetch with rfl | rfl
    · have := s.pc.isLt
      simp only [ne_eq, ExecError.unexpectedEnd.injEq]
      omega
    · nofun
  · obtain ⟨kind, v, rfl⟩ := hraises.eq_outOfBounds
    nofun

/-- Settles O29: a raised error changes only `run` and is not `UnexpectedEnd(256)`, which is the one error that a completed
instruction ends in. -/
theorem errorsArePrecise : Obligations.ErrorsArePrecise := by
  intro m s t e h hrun
  rcases stepWith_raises_or_completes h with ⟨e', rfl, hraised⟩ | ⟨i, -, hcompletes⟩
  · obtain rfl : e' = e := RunState.faulted.inj hrun
    exact ⟨fun _ => rfl, fun he => absurd he (raised_ne_unexpectedEnd_256 hraised)⟩
  · obtain ⟨he, hpc⟩ := hcompletes.pc_of_faulted (running_of_stepWith h) hrun
    exact ⟨fun hne => absurd he hne, fun _ => hpc⟩

end Sys2Proof.Machine
end

section
namespace Sys2Proof.Machine

/-! ## Pieces of the state that take no part in an instruction -/

/-- Which check fails first depends on the operands, `pc` and `sp` alone (spec/40_cycle.md R75 rows 4 to 7). -/
theorem Raises.congr {i : Instr} {s s' : State} {e : ExecError} (h : Raises i s e) (hpc : s'.pc = s.pc)
    (hsp : s'.sp = s.sp) : Raises i s' e := by
  cases h with
  | firstReg hk h8 => exact .firstReg hk h8
  | secondReg hk ha h8 => exact .secondReg hk ha h8
  | pushFull ha hs => exact .pushFull ha (hsp.trans hs)
  | callFull ha hs => exact .callFull ha (hsp.trans hs)
  | popEmpty ha hs => exact .popEmpty ha (hsp.trans hs)
  | retEmpty hs => exact .retEmpty (hsp.trans hs)
  | noReturn ha hs hp =>
    rw [← hpc] at hp ⊢
    exact .noReturn ha (hsp ▸ hs) hp

theorem State.setReg_comm (s : State) {d q : Fin 8} (h : d ≠ q) (v w : Byte) :
    (s.setReg d v).setReg q w = (s.setReg q w).setReg d v := by
  refine State.ext_of_fields (fun r => ?_) rfl rfl rfl rfl rfl rfl
  simp only [State.reg_setReg]
  by_cases hq : r = q
  · subst hq
    simp [h.symm]
  · simp [hq]

/-- An update that leaves `pc` alone and does not look at `pc` and `run` commutes with `advance`. -/
theorem advance_comm {f : State → State} (w : Nat) (s : State) (hpc : (f s).pc = s.pc)
    (hsetPc : ∀ p, (f s).setPc p = f (s.setPc p)) (hraise : ∀ u e, (f u).raise e = f (u.raise e)) :
    advance w (f s) = f (advance w s) := by
  by_cases h : s.pc.toNat + w ≤ 255
  · rw [advance_of_le h, advance_of_le (by rwa [hpc]), hpc, hsetPc]
  · have hpast : 255 < s.pc.toNat + w := by omega
    rw [advance_overflow hpast, advance_overflow (by rwa [hpc]), hsetPc, hraise]

theorem advance_setReg (w : Nat) (s : State) (q : Fin 8) (v : Byte) :
    advance w (s.setReg q v) = (advance w s).setReg q v :=
  advance_comm (f := (State.setReg · q v)) w s rfl (fun _ => rfl) fun _ _ => rfl

/-- An instruction that completes does the same with another value in a register it does not name (spec/10_state.md R12). -/
theorem Completes.setReg {i : Instr} {s t : State} (h : Completes i s t) {q : Fin 8} (v : Byte)
    (hq : BitVec.ofNat 8 q.val ∉ i.regOperands) : Completes i (s.setReg q v) (t.setReg q v) := by
  have unnamed {a : Byte} {r : Fin 8} (hr : a.toNat = r.val) (ha : a ∈ i.regOperands) : r ≠ q := by
    rintro rfl
    exact hq (ofNat_of_toNat_eq_val hr ▸ ha)
  have same {a : Byte} {r : Fin 8} (hr : a.toNat = r.val) (ha : a ∈ i.regOperands) : (s.setReg q v).reg r = s.reg r :=
    State.reg_setReg_other s v (unnamed hr ha)
  cases h with
  | ldi ha =>
    rw [← advance_setReg, s.setReg_comm (unnamed ha (by simp [Instr.regOperands]))]
    exact .ldi ha
  | prn ha =>
    rw [← advance_setReg, ← same ha (by simp [Instr.regOperands])]
    exact .prn ha
  | hlt => exact .hlt
  | mul ha hb | add ha hb =>
    rw [← advance_setReg, s.setReg_comm (unnamed ha (by simp [Instr.regOperands])),
      ← same ha (by simp [Instr.regOperands]), ← same hb (by simp [Instr.regOperands])]
    constructor <;> assumption
  | push ha hs =>
    rw [← advance_setReg, ← same ha (by simp [Instr.regOperands])]
    exact .push (s := s.setReg q v) ha hs
  | @pop _ a sp' d ha hs =>
    have hcomm : ((s.setReg d (s.mem.read s.sp.toNat)).setSp sp').setReg q v =
        ((s.setReg q v).setReg d (s.mem.read s.sp.toNat)).setSp sp' :=
      congrArg (State.setSp · sp') (s.setReg_comm (unnamed ha (by simp [Instr.regOperands])) _ v)
    rw [← advance_setReg, hcomm]
    exact .pop (s := s.setReg q v) ha hs
  | call ha hs hr =>
    rw [← same ha (by simp [Instr.regOperands])]
    exact .call (s := s.setReg q v) ha hs hr
  | ret hs => exact .ret (s := s.setReg q v) hs

/-- Settles O31: the same check fails first, and an instruction that completes reads and writes named registers alone. -/
theorem unnamedRegisterTakesNoPart : Obligations.UnnamedRegisterTakesNoPart := by
  intro i s t q v hq h
  obtain hcompletes | ⟨e, hraises, rfl⟩ := exec_inversion h
  · exact exec_of_completes (hcompletes.setReg v hq)
  · exact exec_of_raises (hraises.congr rfl rfl)

/-- `s` with `earlier` emitted before everything in its `OUT`. -/
def State.prependOut (earlier : List Byte) (s : State) : State := { s with out := earlier ++ s.out }

theorem advance_prependOut (w : Nat) (earlier : List Byte) (s : State) :
    advance w (s.prependOut earlier) = (advance w s).prependOut earlier :=
  advance_comm (f := State.prependOut earlier) w s rfl (fun _ => rfl) fun _ _ => rfl

/-- No instruction reads `OUT` (spec/10_state.md R19): what was emitted before only stays in front. -/
theorem Completes.prependOut {i : Instr} {s t : State} (h : Completes i s t) (earlier : List Byte) :
    Completes i (s.prependOut earlier) (t.prependOut earlier) := by
  cases h with
  | @prn _ a r ha =>
    have hemit : (s.emit (s.reg r)).prependOut earlier = (s.prependOut earlier).emit (s.reg r) :=
      congrArg (fun out => { s with out }) (List.append_assoc earlier s.out [s.reg r]).symm
    rw [← advance_prependOut, hemit]
    exact .prn (s := s.prependOut earlier) ha
  | hlt => exact .hlt
  | ldi | mul | add | push | pop =>
    rw [← advance_prependOut]
    constructor <;> assumption
  | call ha hs hr => exact .call (s := s.prependOut earlier) ha hs hr
  | ret hs => exact .ret (s := s.prependOut earlier) hs

/-- Settles O32: the fetch reads no `OUT`, which check fails first does not depend on it, and no instruction reads it. -/
theorem outIsNeverRead : Obligations.OutIsNeverRead := by
  intro m s t earlier h
  have hrunning : (s.prependOut earlier).run = .running := show s.run = .running from running_of_stepWith h
  have hfetch : fetch m (s.prependOut earlier) = fetch m s :=
    fetchDependsOnlyOnTheBytesAtPc m _ _ rfl rfl fun _ _ _ => rfl
  change stepWith m (s.prependOut earlier) = .next (t.prependOut earlier)
  rcases stepWith_raises_or_completes h with ⟨e, rfl, he | ⟨i, hi, hraises⟩⟩ | ⟨i, hi, hcompletes⟩
  · exact stepWith_of_fetch_error hrunning (hfetch.trans he)
  · exact stepWith_of_raises hrunning (hfetch.trans hi) (hraises.congr rfl rfl)
  · exact stepWith_of_completes hrunning (hfetch.trans hi) (hcompletes.prependOut earlier)

/-- Settles O33: the `PUSH` completes with the register's value on the next opcode byte, inside loaded memory, so the next
fetch looks that value up. -/
theorem nextFetchSeesThePushedByte : Obligations.NextFetchSeesThePushedByte := by
  intro m s a r hrunning hfetch ha hsp hloaded
  have hlen := s.loadedLen.isLt
  obtain ⟨slot, hslot⟩ : ∃ slot : Byte, slot.toNat + 1 = s.sp.toNat := ⟨s.sp - 1, by bv_omega⟩
  set written := (s.setSp slot).setByte slot.toNat (s.reg r)
  have hstep : stepWith m s = .next (advance 2 written) := stepWith_of_completes hrunning hfetch (.push ha hslot)
  obtain ⟨-, hpc, hrun⟩ | ⟨hpast, -⟩ := advance_pc_run 2 written
  · have hpc' : (advance 2 written).pc.toNat = s.pc.toNat + 2 := hpc
    have hrun' : (advance 2 written).run = .running := hrun.trans hrunning
    have hread : (advance 2 written).mem.read (advance 2 written).pc.toNat = s.reg r := by
      rw [hpc', mem_advance, show s.pc.toNat + 2 = slot.toNat by omega]
      exact Memory.read_write_same ..
    have hinside : (advance 2 written).pc.toNat < (advance 2 written).loadedLen.val := by
      rw [hpc', loadedLen_advance]
      exact hloaded
    refine ⟨_, hstep, hrun', hpc', fun hnone => ?_, fun hhlt => ?_⟩
    · rw [← hread] at hnone ⊢
      exact stepWith_of_fetch_error hrun' (fetch_of_illegal hinside hnone)
    · rw [← hread] at hhlt
      exact ⟨_, stepWith_of_fetch hrun' (fetch_of_lookup hhlt hinside), rfl⟩
  · have hpast' : 255 < s.pc.toNat + 2 := hpast
    omega

end Sys2Proof.Machine
end

section
namespace Sys2Proof.Machine

/-! ## States that agree where a fetch or a load can read (spec/20_memory.md R44) -/

section
variable {s s' : State}

theorem AgreeWhereRead.pc_eq (h : AgreeWhereRead s s') : s'.pc = s.pc := h.2.1
theorem AgreeWhereRead.sp_eq (h : AgreeWhereRead s s') : s'.sp = s.sp := h.2.2.1
theorem AgreeWhereRead.run_eq (h : AgreeWhereRead s s') : s'.run = s.run := h.2.2.2.1

/-! Every update keeps the agreement; `sp` may rise, and fall by one onto a cell that is written. -/

theorem AgreeWhereRead.setReg (h : AgreeWhereRead s s') (d : Fin 8) (v : Byte) :
    AgreeWhereRead (s.setReg d v) (s'.setReg d v) := by
  obtain ⟨hregs, hrest⟩ := h
  refine ⟨fun r => ?_, hrest⟩
  rw [State.reg_setReg, State.reg_setReg, hregs r]

theorem AgreeWhereRead.setPc (h : AgreeWhereRead s s') (t : Byte) : AgreeWhereRead (s.setPc t) (s'.setPc t) := by
  obtain ⟨hregs, -, hrest⟩ := h
  exact ⟨hregs, rfl, hrest⟩

theorem AgreeWhereRead.emit (h : AgreeWhereRead s s') (v : Byte) : AgreeWhereRead (s.emit v) (s'.emit v) := by
  obtain ⟨hregs, hpc, hsp, hrun, hout, hrest⟩ := h
  exact ⟨hregs, hpc, hsp, hrun, congrArg (· ++ [v]) hout, hrest⟩

theorem AgreeWhereRead.halt (h : AgreeWhereRead s s') : AgreeWhereRead s.halt s'.halt := by
  obtain ⟨hregs, hpc, hsp, -, hrest⟩ := h
  exact ⟨hregs, hpc, hsp, rfl, hrest⟩

theorem AgreeWhereRead.raise (h : AgreeWhereRead s s') (e : ExecError) : AgreeWhereRead (s.raise e) (s'.raise e) := by
  obtain ⟨hregs, hpc, hsp, -, hrest⟩ := h
  exact ⟨hregs, hpc, hsp, rfl, hrest⟩

theorem AgreeWhereRead.setSp_of_le (h : AgreeWhereRead s s') {sp' : Byte} (hle : s.sp.toNat ≤ sp'.toNat) :
    AgreeWhereRead (s.setSp sp') (s'.setSp sp') := by
  obtain ⟨hregs, hpc, -, hrun, hout, hlen, hloaded, hstack⟩ := h
  exact ⟨hregs, hpc, rfl, hrun, hout, hlen, hloaded, fun a ha => hstack a (hle.trans ha)⟩

theorem AgreeWhereRead.store (h : AgreeWhereRead s s') {slot : Byte} (hslot : slot.toNat + 1 = s.sp.toNat) (v : Byte) :
    AgreeWhereRead ((s.setSp slot).setByte slot.toNat v) ((s'.setSp slot).setByte slot.toNat v) := by
  obtain ⟨hregs, hpc, -, hrun, hout, hlen, hloaded, hstack⟩ := h
  have write_agrees {a : Nat} (ha : a ≠ slot.toNat → s'.mem.read a = s.mem.read a) :
      (s'.mem.write slot.toNat v).read a = (s.mem.write slot.toNat v).read a := by
    rw [Memory.read_write, Memory.read_write]
    exact ite_congr rfl (fun _ => rfl) ha
  refine ⟨hregs, hpc, rfl, hrun, hout, hlen, fun a ha => write_agrees fun _ => hloaded a ha,
    fun a ha h254 => write_agrees fun hne => hstack a ?_ h254⟩
  have hle : slot.toNat ≤ a := ha
  omega

theorem AgreeWhereRead.advance (h : AgreeWhereRead s s') (w : Nat) :
    AgreeWhereRead (advance w s) (Machine.advance w s') := by
  unfold Machine.advance
  rw [h.pc_eq]
  split
  · exact h.setPc _
  · exact (h.setPc _).raise _

/-- The top of the stack, where a load reads, is the same. -/
theorem AgreeWhereRead.read_sp (h : AgreeWhereRead s s') (hsp : s.sp.toNat ≤ 254) :
    s'.mem.read s'.sp.toNat = s.mem.read s.sp.toNat := by
  obtain ⟨-, -, -, -, -, -, -, hstack⟩ := id h
  rw [h.sp_eq]
  exact hstack _ le_rfl hsp

theorem AgreeWhereRead.fetch_eq (h : AgreeWhereRead s s') (m : OpcodeMap) : fetch m s' = fetch m s := by
  obtain ⟨-, hpc, -, -, -, hlen, hloaded, -⟩ := h
  exact fetchDependsOnlyOnTheBytesAtPc m _ _ hpc hlen fun k _ hk => hloaded _ (by rwa [← hlen])

/-- An instruction that completes in the one state completes in the other, and they agree again. -/
theorem Completes.agree {i : Instr} {t : State} (hc : Completes i s t) (h : AgreeWhereRead s s') :
    ∃ t', Completes i s' t' ∧ AgreeWhereRead t t' := by
  have hregs : SameRegs s s' := h.1
  have hpc := h.pc_eq
  have hsp := h.sp_eq
  cases hc with
  | ldi ha => exact ⟨_, .ldi ha, (h.setReg _ _).advance 3⟩
  | prn ha =>
    refine ⟨_, .prn ha, ?_⟩
    rw [hregs]
    exact (h.emit _).advance 2
  | hlt =>
    refine ⟨_, .hlt, ?_⟩
    rw [hpc]
    exact h.halt.setPc _
  | mul ha hb | add ha hb =>
    refine ⟨_, by constructor <;> assumption, ?_⟩
    rw [hregs, hregs]
    exact (h.setReg _ _).advance 3
  | push ha hs =>
    refine ⟨_, .push ha (by rwa [hsp]), ?_⟩
    rw [hregs]
    exact (h.store hs _).advance 2
  | @pop _ a sp' d ha hs =>
    refine ⟨_, .pop ha (by rwa [hsp]), ?_⟩
    rw [h.read_sp (by omega)]
    exact ((h.setReg d _).setSp_of_le (show s.sp.toNat ≤ sp'.toNat by omega)).advance 2
  | call ha hs hr =>
    refine ⟨_, .call ha (by rwa [hsp]) (by rwa [hpc]), ?_⟩
    rw [hregs]
    exact (h.store hs _).setPc _
  | @ret _ sp' hs =>
    refine ⟨_, .ret (by rwa [hsp]), ?_⟩
    rw [h.read_sp (by omega)]
    exact (h.setPc _).setSp_of_le (show s.sp.toNat ≤ sp'.toNat by omega)

end

/-- Settles O50: both states fetch the same; an error is raised in both, and an instruction completes in both. -/
theorem stepKeepsAgreementWhereRead : Obligations.StepKeepsAgreementWhereRead := by
  intro m s s' t h hstep
  have hrunning : s'.run = .running := h.run_eq.trans (running_of_stepWith hstep)
  have hfetch := h.fetch_eq m
  rcases stepWith_raises_or_completes hstep with ⟨e, rfl, he | ⟨i, hi, hraises⟩⟩ | ⟨i, hi, hcompletes⟩
  · exact ⟨_, stepWith_of_fetch_error hrunning (hfetch.trans he), h.raise e⟩
  · exact ⟨_, stepWith_of_raises hrunning (hfetch.trans hi) (hraises.congr h.pc_eq h.sp_eq), h.raise e⟩
  · obtain ⟨t', hcompletes', hagree⟩ := hcompletes.agree h
    exact ⟨t', stepWith_of_completes hrunning (hfetch.trans hi) hcompletes', hagree⟩

end Sys2Proof.Machine
end

section
namespace Sys2Proof.Machine

/-! ## The instructions that halt, push, pop, call and return -/

section
variable {i : Instr} {s t : State}

theorem Completes.sameRegs (h : Completes i s t) (hdest : destOperand i = none) : SameRegs s t := fun _ =>
  h.reg_of_not_dest (by rw [hdest]; nofun)

theorem Completes.sameMemory (h : Completes i s t) (hstore : storeAddress i s = none) : SameMemory s t :=
  (Answers.completes h).sameMemory hstore

/-- The one cell that an instruction may change is the one its new `sp` points to. -/
theorem Completes.sameMemoryBut_sp (h : Completes i s t) : SameMemoryBut t.sp.toNat s t := fun _ ha =>
  by_contra fun hchanged =>
    have ⟨_, hsp, _⟩ := h.store_of_changed hchanged
    ha hsp.symm

theorem exists_slot_of_sp_ne (h : s.sp ≠ 0) : ∃ slot : Byte, slot.toNat + 1 = s.sp.toNat :=
  ⟨s.sp - 1, by bv_omega⟩

theorem exists_sp_after_load (h : s.sp ≠ 255) : ∃ sp' : Byte, sp'.toNat = s.sp.toNat + 1 :=
  ⟨s.sp + 1, by bv_omega⟩

end

/-- Settles O15: `HLT` has no check, and its update halts and steps `pc` on modulo 256. -/
theorem hltHalts : Obligations.HltHalts := by
  intro m s
  have hcompletes : Completes .hlt s (s.halt.setPc (BitVec.ofNat 8 (s.pc.toNat + 1))) := .hlt
  exact ⟨rfl, _, exec_of_completes hcompletes, rfl, BitVec.toNat_ofNat .., hcompletes.sameRegs rfl,
    hcompletes.sameMemory rfl, rfl, rfl, rfl⟩

/-- Settles O18: where the checks pass, the cell below `sp` gets the register and the state advances; otherwise the first
failing check is taken. -/
theorem pushStoresBelowTheStackPointer : Obligations.PushStoresBelowTheStackPointer := by
  intro m s a
  refine ⟨rfl, fun r ha hsp => ?_, fun hbad => exec_of_raises (.firstReg rfl hbad),
    fun hok hsp => exec_of_raises (.pushFull (by omega) hsp)⟩
  obtain ⟨slot, hslot⟩ := exists_slot_of_sp_ne hsp
  have hcompletes := Completes.push ha hslot
  refine ⟨_, exec_of_completes hcompletes, ?_, ?_, hcompletes.sameMemoryBut_sp, hcompletes.sameRegs rfl,
    out_advance 2 _, loadedLen_advance 2 _, advancesBy_advance 2 rfl rfl⟩
  · rw [sp_advance]
    exact hslot
  · rw [mem_advance, sp_advance]
    exact Memory.read_write_same ..

/-- Settles O19: where the checks pass, the register gets the byte at the old `sp` and the state advances; otherwise the
first failing check is taken. -/
theorem popLoadsFromTheStackPointer : Obligations.PopLoadsFromTheStackPointer := by
  intro m s a
  refine ⟨rfl, fun d ha hsp => ?_, fun hbad => exec_of_raises (.firstReg rfl hbad),
    fun hok hsp => exec_of_raises (.popEmpty (by omega) hsp)⟩
  obtain ⟨sp', hsp'⟩ := exists_sp_after_load hsp
  have hcompletes := Completes.pop ha hsp'
  refine ⟨_, exec_of_completes hcompletes, ?_, ?_, fun r hr => ?_, hcompletes.sameMemory rfl,
    out_advance 2 _, loadedLen_advance 2 _, advancesBy_advance 2 rfl rfl⟩
  · rw [reg_advance, State.reg_setSp, State.reg_setReg_same]
  · rw [sp_advance]
    exact hsp'
  · rw [reg_advance, State.reg_setSp, State.reg_setReg_other _ _ hr]

/-- Settles O20: where the checks pass, the cell below `sp` gets `pc + 2` and `pc` the register; otherwise the first failing
check is taken, the last of them being the return address from 254. -/
theorem callPushesTheReturnAddressAndJumps : Obligations.CallPushesTheReturnAddressAndJumps := by
  intro m s a
  refine ⟨rfl, fun r ha hsp hpc => ?_, fun hbad => exec_of_raises (.firstReg rfl hbad),
    fun hok hsp => exec_of_raises (.callFull (by omega) hsp), fun hok hsp hpc => ?_⟩
  · obtain ⟨slot, hslot⟩ := exists_slot_of_sp_ne hsp
    obtain ⟨ret, hret⟩ : ∃ ret : Byte, ret.toNat = s.pc.toNat + 2 := ⟨s.pc + 2, by bv_omega⟩
    have hcompletes := Completes.call ha hslot hret
    have hcell : (((s.setSp slot).setByte slot.toNat ret).setPc (s.reg r)).mem.read slot.toNat = ret :=
      Memory.read_write_same ..
    exact ⟨_, exec_of_completes hcompletes, rfl, hslot, (congrArg _ hcell).trans hret, hcompletes.sameMemoryBut_sp,
      hcompletes.sameRegs rfl, rfl, rfl, rfl⟩
  · have hraised := exec_of_raises (Raises.noReturn (a := a) (by omega) hsp (show 256 ≤ s.pc.toNat + 2 by rw [hpc]; decide))
    rw [hpc] at hraised
    exact hraised

/-- Settles O21: where the stack is not empty, `pc` gets the byte at the old `sp`; otherwise the check is taken. -/
theorem retPopsThePc : Obligations.RetPopsThePc := by
  intro m s
  refine ⟨rfl, fun hsp => ?_, fun hsp => exec_of_raises (.retEmpty hsp)⟩
  obtain ⟨sp', hsp'⟩ := exists_sp_after_load hsp
  have hcompletes := Completes.ret hsp'
  exact ⟨_, exec_of_completes hcompletes, rfl, hsp', hcompletes.sameRegs rfl, hcompletes.sameMemory rfl, rfl, rfl, rfl⟩

/-! ## Laws of the stack, of call and of return -/

theorem next_eq_of_exec {i : Instr} {s t u : State} (ht : exec i s = .next t) (hu : exec i s = .next u) : t = u :=
  Host.Outcome.next.inj (ht.symm.trans hu)

/-- Settles O38: the value and `sp` that `PUSH` leaves (O18) are what `POP` finds (O19). -/
theorem popUndoesPush : Obligations.PopUndoesPush := by
  intro a b r d s t t' u ha hb hsp hpush hsp' hcell hpop
  obtain ⟨-, hpushes, -⟩ := pushStoresBelowTheStackPointer .default s a
  obtain ⟨t₀, ht₀, hslot, hvalue, hother, -⟩ := hpushes r ha hsp
  obtain rfl := next_eq_of_exec hpush ht₀
  have hnonempty : t'.sp ≠ 255 := by bv_omega
  obtain ⟨-, hpops, -⟩ := popLoadsFromTheStackPointer .default t' b
  obtain ⟨u₀, hu₀, hload, hup, -, hmem, -⟩ := hpops d hb hnonempty
  obtain rfl := next_eq_of_exec hpop hu₀
  have hslot' : s.sp.toNat - 1 = t.sp.toNat := by omega
  rw [hslot']
  refine ⟨?_, ?_, hmem, hother, hvalue⟩
  · rw [hload, hsp', hcell, hvalue]
  · exact BitVec.eq_of_toNat_eq (by rw [hup, hsp', hslot])

/-- Settles O39: the return address and `sp` that `CALL` leaves (O20) are what `RET` finds (O21). -/
theorem retReturnsPastTheCall : Obligations.RetReturnsPastTheCall := by
  intro a r s t t' u ha hsp hpc hcall hsp' hcell hret
  obtain ⟨-, hcalls, -⟩ := callPushesTheReturnAddressAndJumps .default s a
  obtain ⟨t₀, ht₀, -, hslot, hvalue, -⟩ := hcalls r ha hsp (by omega)
  obtain rfl := next_eq_of_exec hcall ht₀
  have hnonempty : t'.sp ≠ 255 := by bv_omega
  obtain ⟨-, hrets, -⟩ := retPopsThePc .default t'
  obtain ⟨u₀, hu₀, hload, hup, -, hmem, -, hrun, -⟩ := hrets hnonempty
  obtain rfl := next_eq_of_exec hret hu₀
  have hslot' : s.sp.toNat - 1 = t.sp.toNat := by omega
  refine ⟨?_, ?_, hrun, ?_⟩
  · rw [hload, hsp', hcell, hvalue]
  · exact BitVec.eq_of_toNat_eq (by rw [hup, hsp', hslot])
  · rw [hslot', hmem, hcell, hvalue]

/-- Settles O40: `PUSH` leaves the register's value on the stack and goes on (O18), and `RET` takes it as `pc` (O21). -/
theorem pushThenRetIsAnIndirectJump : Obligations.PushThenRetIsAnIndirectJump := by
  intro a r s ha hsp hpc
  obtain ⟨-, hpushes, -⟩ := pushStoresBelowTheStackPointer .default s a
  obtain ⟨t, ht, hslot, hvalue, -, hregs, -, -, hgoesOn, -⟩ := hpushes r ha hsp
  have hnonempty : t.sp ≠ 255 := by bv_omega
  obtain ⟨-, hrets, -⟩ := retPopsThePc .default t
  obtain ⟨u, hu, hload, hup, hregs', -, -, hrun, -⟩ := hrets hnonempty
  obtain ⟨-, hrunning⟩ := hgoesOn hpc
  exact ⟨t, u, ht, hu, hload.trans hvalue, BitVec.eq_of_toNat_eq (hup.trans hslot),
    fun q => (hregs' q).trans (hregs q), hrun.trans hrunning⟩

/-! ## The ALU -/

theorem aluOp_of_ok {tag : AluTag} {ra rb : Fin 8} {s : State} {r : Byte} (h : alu tag (s.reg ra) (s.reg rb) = .ok r) :
    aluOp tag ra rb s = .ok (s.setReg ra r) := by
  simp only [aluOp, h, bind, Except.bind, pure, Except.pure]

theorem aluOp_of_error {tag : AluTag} {ra rb : Fin 8} {s : State} {e : ExecError}
    (h : alu tag (s.reg ra) (s.reg rb) = .error e) : aluOp tag ra rb s = .error e := by
  simp only [aluOp, h, bind, Except.bind]

/-- Settles O34: addition and multiplication of bytes are those of numbers modulo 256. -/
theorem aluAddsAndMultipliesModulo256 : Obligations.AluAddsAndMultipliesModulo256 := by
  intro p q s ra rb
  exact ⟨⟨_, alu_add p q, BitVec.toNat_add p q⟩, ⟨_, alu_mul p q, BitVec.toNat_mul p q⟩, rfl,
    fun _ _ => aluOp_of_ok, fun _ _ => aluOp_of_error⟩

/-- Settles O35: the ALU's answers are sum and product of bytes, whose algebra and signed reading are `BitVec`'s. -/
theorem aluAlgebraAndSignedReading : Obligations.AluAlgebraAndSignedReading := by
  intro p q u
  simp only [alu_add, alu_mul, Except.ok.injEq, forall_eq']
  refine ⟨BitVec.add_comm p q, BitVec.mul_comm p q, ?_, ?_, BitVec.add_zero p, BitVec.mul_one p, BitVec.mul_zero,
    BitVec.toInt_add p q, BitVec.toInt_mul p q⟩
  · exact (alu_add (p + q) u).trans ((congrArg _ (BitVec.add_assoc p q u)).trans (alu_add p (q + u)).symm)
  · exact (alu_mul (p * q) u).trans ((congrArg _ (BitVec.mul_assoc p q u)).trans (alu_mul p (q * u)).symm)

end Sys2Proof.Machine
end

section
namespace Sys2Proof.Machine

/-! ## The canonical form of memory -/

theorem cellsRead_of_mem {cells : List Host.Cell} (hrising : cells.Pairwise (fun p q => p.1 < q.1)) {a : Nat} {v : Byte}
    (h : (a, v) ∈ cells) : cellsRead cells a = v := by
  induction cells with
  | nil => cases h
  | cons c rest ih =>
    obtain ⟨k, w⟩ := c
    obtain ⟨hfirst, hrest⟩ := List.pairwise_cons.1 hrising
    rcases List.mem_cons.1 h with heq | hmem
    · obtain ⟨rfl, rfl⟩ := Prod.mk.inj heq
      exact if_pos rfl
    · have hlt : k < a := hfirst _ hmem
      exact (if_neg (by omega)).trans (ih hrest hmem)

theorem mem_of_cellsRead_ne {cells : List Host.Cell} {a : Nat} (h : cellsRead cells a ≠ unlistedByte) :
    (a, cellsRead cells a) ∈ cells := by
  induction cells with
  | nil => exact absurd rfl h
  | cons c rest ih =>
    obtain ⟨k, w⟩ := c
    by_cases hk : a = k
    · subst hk
      simp [cellsRead]
    · simp only [cellsRead, if_neg hk] at h ⊢
      exact List.mem_cons_of_mem _ (ih h)

/-- In canonical form the listed cells are exactly those that read as something else than an unlisted address. -/
theorem Memory.mem_cells_iff {m : Memory} (h : m.wf) {a : Nat} {v : Byte} :
    (a, v) ∈ m.cells ↔ a ≤ 255 ∧ m.read a = v ∧ v ≠ unlistedByte := by
  obtain ⟨hrising, hcells⟩ := h
  constructor
  · intro hmem
    obtain ⟨ha, hv⟩ := hcells _ hmem
    exact ⟨Nat.le_of_lt_succ ha, cellsRead_of_mem hrising hmem, hv⟩
  · rintro ⟨-, rfl, hv⟩
    exact mem_of_cellsRead_ne hv

/-- Settles O37: two canonical memories that read alike list the same cells, and both in rising order. -/
theorem memoryFormIsCanonical : Obligations.MemoryFormIsCanonical := by
  rintro ⟨cells⟩ ⟨cells'⟩ hm hn hread
  have hsame (c : Host.Cell) : c ∈ cells ↔ c ∈ cells' := by
    obtain ⟨a, v⟩ := c
    rw [Memory.mem_cells_iff hm, Memory.mem_cells_iff hn]
    exact and_congr_right fun ha => by rw [hread a ha]
  have hirrefl : Std.Irrefl (fun p q : Host.Cell => p.1 < q.1) := ⟨fun _ => Nat.lt_irrefl _⟩
  have hantisymm : Std.Antisymm (fun p q : Host.Cell => p.1 < q.1) := ⟨fun _ _ h h' => absurd h (Nat.lt_asymm h')⟩
  exact congrArg Memory.mk (hm.1.eq_of_mem_iff hn.1 hsame)

/-! ## Reset and launch -/

/-- Settles O41: by evaluating the reset state, whose memory lists no cell. -/
theorem resetHoldsItsValues : Obligations.ResetHoldsItsValues :=
  ⟨by decide, rfl, rfl, rfl, rfl, rfl, fun _ => rfl, rfl, rfl⟩

/-- Settles O43: the loader's own write past address 255 fails. -/
theorem loaderRefusesMoreThan256Bytes : Obligations.LoaderRefusesMoreThan256Bytes := by
  intro c program hlong
  have hload := loadFrom_past program 0 (resetWith c) (by omega) (by omega)
  simp only [launch, hload, bind, Except.bind]

/-- Settles O51: both launches hold the program below `LOADED_LEN`, and `sp = 255` leaves no cell for a load to read. -/
theorem launchesAgreeWhereRead : Obligations.LaunchesAgreeWhereRead := by
  intro c c' program s s' hreg h h'
  obtain ⟨hlen, mem, rfl, -, -, hbytes⟩ := launch_inversion h
  obtain ⟨-, mem', rfl, -, -, hbytes'⟩ := launch_inversion h'
  have hregs (r : Fin 8) : (resetWith c').reg r = (resetWith c).reg r := by
    rw [reg_resetWith, reg_resetWith, hreg]
  have hstack (a : Nat) (hsp : 255 ≤ a) (ha : a ≤ 254) : mem'.read a = mem.read a := by omega
  exact ⟨hregs, rfl, rfl, rfl, rfl, rfl, fun a ha => (hbytes' a ha).trans (hbytes a ha).symm, hstack⟩

/-! ## The invariant (spec/10_state.md R23) -/

theorem inv_raise {m : OpcodeMap} {s : State} {e : ExecError} (hwf : s.mem.wf) (he : e.Legal m) : (s.raise e).Inv m := by
  refine ⟨hwf, fun e' h => ?_⟩
  obtain rfl := RunState.faulted.inj h
  exact he

theorem inv_of_running {m : OpcodeMap} {s : State} (hwf : s.mem.wf) (hrun : s.run = .running) : s.Inv m :=
  ⟨hwf, fun _ h => by cases hrun.symm.trans h⟩

/-- Settles O44: both kinds of state run, on memory in canonical form. -/
theorem invariantHoldsAtResetAndLaunch : Obligations.InvariantHoldsAtResetAndLaunch := by
  intro m
  refine ⟨inv_of_running Memory.wf_empty rfl, fun c program s h => ?_⟩
  obtain ⟨-, mem, rfl, hwf, -⟩ := launch_inversion h
  exact inv_of_running hwf rfl

theorem legal_of_fetch_error {m : OpcodeMap} {s : State} {e : ExecError} (h : fetch m s = .error e) : e.Legal m := by
  have hend : (ExecError.unexpectedEnd s.pc.toNat).Legal m := Nat.le_of_lt s.pc.isLt
  rcases fetch_cases m s with ⟨-, h'⟩ | ⟨-, hnone, h'⟩ | ⟨_, -, -, -, h'⟩ | ⟨_, -, -, h'⟩
  · exact Except.error.inj (h'.symm.trans h) ▸ hend
  · exact Except.error.inj (h'.symm.trans h) ▸ hnone
  · exact Except.error.inj (h'.symm.trans h) ▸ hend
  · cases h'.symm.trans h

/-- The checks of an instruction that fits below 256 record what R134 says; a `CALL` with no return address is at 254. -/
theorem Raises.legal {m : OpcodeMap} {i : Instr} {s : State} {e : ExecError} (h : Raises i s e)
    (hfit : s.pc.toNat + i.length ≤ 256) : e.Legal m := by
  have reg_legal {k : Byte} (hk : 8 ≤ k.toNat) : (ExecError.outOfBounds .reg k.toNat).Legal m := by
    have hlt := k.isLt
    constructor <;> omega
  cases h with
  | firstReg _ hk => exact reg_legal hk
  | secondReg _ _ hk => exact reg_legal hk
  | pushFull | callFull => exact .inl rfl
  | popEmpty | retEmpty => exact .inr rfl
  | @noReturn _ a _ _ hp =>
    have hlength : (Instr.call a).length = 2 := rfl
    rw [hlength] at hfit
    rw [show s.pc.toNat + 2 = 256 by omega]
    exact .inr rfl

theorem Completes.wf_mem {i : Instr} {s t : State} (h : Completes i s t) (hwf : s.mem.wf) : t.mem.wf := by
  cases h with
  | @push _ _ slot =>
    rw [mem_advance]
    exact Memory.wf_write hwf slot.isLt _
  | @call _ _ slot => exact Memory.wf_write hwf slot.isLt _
  | ldi | prn | mul | add | pop => rwa [mem_advance]
  | hlt | ret => exact hwf

theorem stepWith_keeps_inv {m : OpcodeMap} {s t : State} (hinv : s.Inv m) (h : stepWith m s = .next t) : t.Inv m := by
  obtain ⟨hwf, -⟩ := hinv
  rcases stepWith_raises_or_completes h with ⟨e, rfl, hfetch | ⟨i, hfetch, hraises⟩⟩ | ⟨i, hfetch, hcompletes⟩
  · exact inv_raise hwf (legal_of_fetch_error hfetch)
  · exact inv_raise hwf (hraises.legal (pc_add_length_le_256_of_fetch hfetch))
  · refine ⟨hcompletes.wf_mem hwf, fun e hrun => ?_⟩
    obtain ⟨rfl, -⟩ := hcompletes.pc_of_faulted (running_of_stepWith h) hrun
    exact Nat.le_refl 256

/-- Settles O45: `step` is `stepWith` under the default opcode bytes. -/
theorem everyStepKeepsTheInvariant : Obligations.EveryStepKeepsTheInvariant :=
  ⟨fun _ _ _ => stepWith_keeps_inv, fun _ _ => stepWith_keeps_inv⟩

end Sys2Proof.Machine
end

section
namespace Sys2Proof.Machine

/-! ## Runs -/

/-- Two stopped states on one run are the same state. -/
theorem runFor_eq_of_stopped {m : OpcodeMap} {s : State} {k j : Nat} (hk : (runFor m k s).run ≠ .running)
    (hj : (runFor m j s).run ≠ .running) : runFor m k s = runFor m j s := by
  have later {k j : Nat} (hk : (runFor m k s).run ≠ .running) (hle : k ≤ j) : runFor m j s = runFor m k s := by
    obtain ⟨d, rfl⟩ := Nat.exists_eq_add_of_le hle
    rw [runFor_add, runFor_of_stopped hk]
  rcases Nat.le_total k j with hle | hle
  · exact (later hk hle).symm
  · exact later hj hle

/-- Settles O46: a run's stopped states are one state, which has one `run`. -/
theorem runHasAtMostOneOutcome : Obligations.RunHasAtMostOneOutcome := by
  intro m s
  have same {k j : Nat} {r r' : RunState} (hk : (runFor m k s).run = r) (hj : (runFor m j s).run = r')
      (hr : r ≠ .running) (hr' : r' ≠ .running) : r = r' := by
    rw [← hk, ← hj, runFor_eq_of_stopped (hk ▸ hr) (hj ▸ hr')]
  refine ⟨fun k j hstopped => ?_, ?_, ?_⟩
  · rw [runFor_add, runFor_of_stopped hstopped]
  · rintro ⟨k, hk⟩ e ⟨j, hj⟩
    cases same hk hj nofun nofun
  · rintro e e' ⟨k, hk⟩ ⟨j, hj⟩
    exact RunState.faulted.inj (same hk hj nofun nofun)

theorem out_stepWith {m : OpcodeMap} {s t : State} (h : stepWith m s = .next t) :
    ∃ emitted, t.out = s.out ++ emitted ∧ emitted.length ≤ 1 := by
  rcases stepWith_raises_or_completes h with ⟨e, rfl, -⟩ | ⟨i, -, hcompletes⟩
  · exact ⟨[], (List.append_nil _).symm, Nat.zero_le 1⟩
  · rcases hcompletes.out_cases with hout | ⟨a, r, -, -, hout⟩
    · exact ⟨[], hout.trans (List.append_nil _).symm, Nat.zero_le 1⟩
    · exact ⟨[s.reg r], hout, Nat.le_refl 1⟩

/-- Settles O47: by induction on the number of steps, each of which appends at most one value. -/
theorem outOnlyGrowsAlongARun : Obligations.OutOnlyGrowsAlongARun := by
  intro m k
  induction k with
  | zero => exact fun s => ⟨[], (List.append_nil _).symm, Nat.le_refl 0⟩
  | succ k ih =>
    intro s
    by_cases hrunning : s.run = .running
    · obtain ⟨t, ht⟩ := stepWith_answers_of_running m hrunning
      obtain ⟨first, hfirst, hfirst1⟩ := out_stepWith ht
      obtain ⟨rest, hrest, hrestk⟩ := ih t
      refine ⟨first ++ rest, ?_, ?_⟩
      · rw [runFor_succ_of_next k ht, hrest, hfirst, List.append_assoc]
      · rw [List.length_append]
        omega
    · rw [runFor_of_stopped hrunning]
      exact ⟨[], (List.append_nil _).symm, Nat.zero_le _⟩

/-- A step changes a byte of memory only at its new `sp`, which lies below the old one (R110, R120). -/
theorem sp_of_changed_stepWith {m : OpcodeMap} {s t : State} (h : stepWith m s = .next t) {a : Nat}
    (ha : t.mem.read a ≠ s.mem.read a) : t.sp.toNat = a ∧ a + 1 = s.sp.toNat := by
  rcases stepWith_raises_or_completes h with ⟨e, rfl, -⟩ | ⟨i, -, hcompletes⟩
  · exact absurd rfl ha
  · exact (hcompletes.store_of_changed ha).2

/-- Settles O48: a byte that a step changes lies below `sp`, so below 255. -/
theorem cell255IsNeverWritten : Obligations.Cell255IsNeverWritten := by
  intro m k s
  have hstep (u v : State) (hu : u.mem.read 255 = s.mem.read 255) (h : stepWith m u = .next v) :
      v.mem.read 255 = s.mem.read 255 := by
    refine Eq.trans (by_contra fun hchanged => ?_) hu
    obtain ⟨-, hsp⟩ := sp_of_changed_stepWith h hchanged
    omega
  exact runFor_induction hstep k rfl

/-- Two runs keep a relation that a step of the first can always be answered in by a step of the second, and under which
both stop together. -/
theorem runFor_simulation {m : OpcodeMap} {R : State → State → Prop} (hrun : ∀ s s', R s s' → s'.run = s.run)
    (hstep : ∀ s s' t, R s s' → stepWith m s = .next t → ∃ t', stepWith m s' = .next t' ∧ R t t')
    (k : Nat) {s s' : State} (h : R s s') : R (runFor m k s) (runFor m k s') := by
  induction k generalizing s s' with
  | zero => exact h
  | succ k ih =>
    by_cases hrunning : s.run = .running
    · obtain ⟨t, ht⟩ := stepWith_answers_of_running m hrunning
      obtain ⟨t', ht', hagree⟩ := hstep s s' t h ht
      rw [runFor_succ_of_next k ht, runFor_succ_of_next k ht']
      exact ih hagree
    · have hstopped : s'.run ≠ .running := hrun s s' h ▸ hrunning
      rwa [runFor_of_stopped hrunning, runFor_of_stopped hstopped]

/-- The runs of two launches with the fills `v` and `v'`: they agree where a fetch or a load can read, and every cell reads
alike in both or still holds its own launch's fill. -/
def AgreeUpToFill (v v' : Byte) (s s' : State) : Prop :=
  AgreeWhereRead s s' ∧
    ∀ a, a ≤ 255 → s.mem.read a = s'.mem.read a ∨ (s.mem.read a = v ∧ s'.mem.read a = v')

/-- A cell that either step writes is the new top of the stack, where the next states agree; any other is as it was. -/
theorem AgreeUpToFill.step {m : OpcodeMap} {v v' : Byte} {s s' t : State} (h : AgreeUpToFill v v' s s')
    (hstep : stepWith m s = .next t) : ∃ t', stepWith m s' = .next t' ∧ AgreeUpToFill v v' t t' := by
  obtain ⟨hagree, hcells⟩ := h
  obtain ⟨t', hstep', hagree'⟩ := stepKeepsAgreementWhereRead m s s' t hagree hstep
  have written {a : Nat} (hsp : t.sp.toNat = a) (ha : a ≤ 254) : t.mem.read a = t'.mem.read a := by
    have htop := hagree'.read_sp (by omega)
    rw [hagree'.sp_eq, hsp] at htop
    exact htop.symm
  refine ⟨t', hstep', hagree', fun a ha => ?_⟩
  by_cases hsame : t.mem.read a = s.mem.read a
  · by_cases hsame' : t'.mem.read a = s'.mem.read a
    · rw [hsame, hsame']
      exact hcells a ha
    · obtain ⟨hsp, hbelow⟩ := sp_of_changed_stepWith hstep' hsame'
      rw [hagree'.sp_eq] at hsp
      exact .inl (written hsp (by omega))
  · obtain ⟨hsp, hbelow⟩ := sp_of_changed_stepWith hstep hsame
    exact .inl (written hsp (by omega))

theorem agreeUpToFill_of_launch {c c' : Config} {program : List Byte} {s s' : State} (hreg : c.regReset = c'.regReset)
    (h : launch c program = .ok s) (h' : launch c' program = .ok s') : AgreeUpToFill c.memFill c'.memFill s s' := by
  refine ⟨launchesAgreeWhereRead c c' program s s' hreg h h', fun a ha => ?_⟩
  obtain ⟨-, mem, rfl, -, hfill, hbytes⟩ := launch_inversion h
  obtain ⟨-, mem', rfl, -, hfill', hbytes'⟩ := launch_inversion h'
  by_cases hin : a < program.length
  · exact .inl ((hbytes a hin).trans (hbytes' a hin).symm)
  · rw [Nat.not_lt] at hin
    exact .inr ⟨(hfill a hin).trans (Memory.read_filled _ (by omega)),
      (hfill' a hin).trans (Memory.read_filled _ (by omega))⟩

/-- Settles O49: the two launches agree up to their fills (O51), and every step keeps that (O50). -/
theorem noProgramObservesMemFill : Obligations.NoProgramObservesMemFill := by
  intro c c' program s s' k hreg _ h h'
  have hrun (u u' : State) (hu : AgreeUpToFill c.memFill c'.memFill u u') : u'.run = u.run := hu.1.run_eq
  obtain ⟨⟨hregs, hpc, hsp, hruns, hout, -⟩, hcells⟩ :=
    runFor_simulation (m := c.opcodes) hrun (fun _ _ _ => AgreeUpToFill.step) k (agreeUpToFill_of_launch hreg h h')
  exact ⟨hregs, hpc.symm, hsp.symm, hruns.symm, hout.symm, hcells⟩

end Sys2Proof.Machine
end
